-- ==== Sys2Proof/Word.lean ====
section
/-! DEFINITION. The word types of the CFD: 32-bit request and response words (30_encoding.md R61), bytes of IBUF
(20_memory.md R40), 64-bit entries of OBUF (20_memory.md R41), and buffer capacities (00_scope.md R6). -/

namespace Sys2Proof

/-- A request or response word, 32 bits (00_scope.md R6, 30_encoding.md R61). -/
abbrev Word := BitVec 32

/-- A byte of a record or of IBUF (20_memory.md R40). -/
abbrev Byte := BitVec 8

/-- A reconstructed mantissa, u24 (40_record_decode.md R81). -/
abbrev Mantissa := BitVec 24

/-- A binary64 bit pattern: one OBUF entry (20_memory.md R41). -/
abbrev Entry := BitVec 64

/-- A packet of words, request or response: a list of any length, empty included (30_encoding.md R61). -/
abbrev Packet := List Word

/-- A buffer capacity, 0 to 2^32 (00_scope.md R6). -/
abbrev Capacity := Fin 4294967297

end Sys2Proof
end

