-- ==== Sys2Proof/Config.lean ====
section
/-! DEFINITION. The parameters of the CFD (00_scope.md R6, 10_state.md R28): the fixed ones as named constants, the
OPEN ones as constants with no body, so that no proof can see a value of them. -/

namespace Sys2Proof

/-- `BIAS` (00_scope.md R6). -/
def Config.bias : Nat := 128

/-- `RECORD_BYTES` (00_scope.md R6). -/
def Config.recordBytes : Nat := 4

/-- `MANTISSA_SCALE_BITS`, the named constant of the format (00_scope.md R6, 10_state.md R28). -/
def Config.mantissaScaleBits : Nat := 22

/-- `IBUF_BYTES`, OPEN (00_scope.md R6, 92 D13): nothing is known of it but its range. DESIGN CHOICE, safe (log 3). -/
opaque Config.ibufBytes : Capacity

/-- `OBUF_ENTRIES`, OPEN (00_scope.md R6, 92 D13). DESIGN CHOICE, safe (log 3). -/
opaque Config.obufEntries : Capacity

/-- `LATENCY`, OPEN; no rule depends on it (70_reset_and_hazards.md R155), so nothing reads it. That a request
completes in its own step is a DESIGN CHOICE, unsafe if hardware can hang (log 9). -/
opaque Config.latency : Nat

end Sys2Proof
end

