-- ==== Sys2Proof/Machine/Binary64.lean ====
section
/-! DEFINITION. The binary64 patterns the CFD outputs (40_record_decode.md R84), and the rational number a pattern
stands for. The layout is from general knowledge in the spec's own words (93 G1). PRESUMED, unsafe if it were wrong (log 10). -/

namespace Sys2Proof.Machine

/-- `msb(m)`: the largest p with 2^p <= m, for m not 0 (40 R84). -/
def msb (m : Nat) : Nat := Nat.log2 m

/-- The pattern of sign, exponent field and fraction: sign in bit 63, exponent in [62:52], fraction in [51:0] (R84). -/
def f64pack (sign : BitVec 1) (expo : BitVec 11) (frac : BitVec 52) : Entry := sign ++ expo ++ frac

/-- `f64bits(m, k)`: the binary64 pattern of m * 2^k, with no rounding step (40 R84). -/
def f64bits (m : Nat) (k : Int) : Entry :=
  if m = 0 then 0#64
  else f64pack 0#1 (BitVec.ofInt 11 (1023 + msb m + k)) (BitVec.ofNat 52 ((m - 2 ^ msb m) * 2 ^ (52 - msb m)))

/-- The sign bit of a pattern (R84). -/
def f64sign (v : Entry) : BitVec 1 := v.extractLsb' 63 1

/-- The exponent field of a pattern, [62:52] (R84). -/
def f64expo (v : Entry) : BitVec 11 := v.extractLsb' 52 11

/-- The fraction of a pattern, [51:0] (R84). -/
def f64frac (v : Entry) : BitVec 52 := v.extractLsb' 0 52

/-- The number a pattern stands for, where R84 gives one: +0.0 is all zero bits, and a normal number (exponent field 1
to 2046) is (1 + F/2^52) * 2^(E - 1023), negative when the sign bit is set. Any other pattern (a subnormal, an infinity,
a NaN, -0.0) gives none. -/
def f64value (v : Entry) : Option ℚ :=
  if v = 0#64 then some 0
  else if 1 ≤ (f64expo v).toNat ∧ (f64expo v).toNat ≤ 2046 then
    some ((if f64sign v = 1#1 then -1 else 1) * (1 + ((f64frac v).toNat : ℚ) / 2 ^ 52)
      * (2 : ℚ) ^ (((f64expo v).toNat : Int) - 1023))
  else none

/-- `bv64_lo(v) = v[31:0]` (00_scope.md R11). -/
def bv64lo (v : Entry) : Word := v.extractLsb' 0 32

/-- `bv64_hi(v) = v[63:32]` (00_scope.md R11). -/
def bv64hi (v : Entry) : Word := v.extractLsb' 32 32

end Sys2Proof.Machine
end

