-- ==== Sys2Proof/Machine/Datapath.lean ====
section
/-! DEFINITION. The three sub-units of the CFD (40_record_decode.md R80, R81, R82) and the function `decode` of the whole
datapath (R86), pure and total: it reads no state and writes none. -/

namespace Sys2Proof.Machine

/-- An exact product `mant * 2^pow`: what the multiplier carries, since a multiply by a power of two is an exponent
addition (40 R88). DEDUCED, safe (log 13). -/
structure Scaled where
  mant : Mantissa
  pow : Int
deriving DecidableEq, Repr

/-- The rational number an exact product stands for (40 R82). -/
def scaledValue (x : Scaled) : ℚ := (x.mant.toNat : ℚ) * (2 : ℚ) ^ x.pow

/-- `biased_exponent_extraction(b0) -> e` (40 R80). -/
def biasedExponentExtraction (b0 : Byte) : Int := (b0.toNat : Int) - Config.bias

/-- `EXP = b0 XOR 8'h80`, the exponent as an s8 byte (40 R80). -/
def exponentByte (b0 : Byte) : Byte := b0 ^^^ 0x80#8

/-- `mantissa_reconstruction(b1, b2, b3) -> m` (40 R81). -/
def mantissaReconstruction (b1 b2 b3 : Byte) : Mantissa :=
  (b1.setWidth 24 <<< 16) ||| (b2.setWidth 24 <<< 8) ||| b3.setWidth 24

/-- The `raw` output of `scaled_power_of_two_multiplier(m, e)`: m * 2^e (40 R82). -/
def multiplierRaw (m : Mantissa) (e : Int) : Scaled := ⟨m, e⟩

/-- The `scaled` output of `scaled_power_of_two_multiplier(m, e)`: raw / 2^22, exact (40 R82). -/
def multiplierScaled (m : Mantissa) (e : Int) : Scaled := ⟨m, e - Config.mantissaScaleBits⟩

/-- The binary64 pattern of an exact product (40 R84, R86). -/
def scaledBits (x : Scaled) : Entry := f64bits x.mant.toNat x.pow

/-- The four results of the datapath (40 R86). -/
structure Decoded where
  exp : Byte
  man : Mantissa
  val : Entry
  raw : Entry
deriving DecidableEq, Repr

/-- `b0 = REC[31:24]` (30_encoding.md R62). -/
def recordB0 (record : Word) : Byte := record.extractLsb' 24 8

/-- `b1 = REC[23:16]` (30 R62). -/
def recordB1 (record : Word) : Byte := record.extractLsb' 16 8

/-- `b2 = REC[15:8]` (30 R62). -/
def recordB2 (record : Word) : Byte := record.extractLsb' 8 8

/-- `b3 = REC[7:0]` (30 R62). -/
def recordB3 (record : Word) : Byte := record.extractLsb' 0 8

/-- `decode(REC) -> (EXP, MAN, VAL, RAW)` (40 R86). -/
def decodeRecord (record : Word) : Decoded where
  exp := exponentByte (recordB0 record)
  man := mantissaReconstruction (recordB1 record) (recordB2 record) (recordB3 record)
  val := scaledBits (multiplierScaled
    (mantissaReconstruction (recordB1 record) (recordB2 record) (recordB3 record))
    (biasedExponentExtraction (recordB0 record)))
  raw := scaledBits (multiplierRaw
    (mantissaReconstruction (recordB1 record) (recordB2 record) (recordB3 record))
    (biasedExponentExtraction (recordB0 record)))

end Sys2Proof.Machine
end

