-- ==== Sys2Proof/Syntax.lean ====
section
/-! DEFINITION. The requests of the CFD, one constructor per row of the opcode table (30_encoding.md R64, R65, R72).
A packet that is none of them is not an `Instr`: the decoder answers it with a name of its own (R73). -/

namespace Sys2Proof

/-- The three requests with their operands (30_encoding.md R65). Every operand has exactly the width of its field,
so every term of this type is a request that some packet encodes. -/
inductive Instr where
  /-- DECREC: the number of valid record bytes RLEN = w0[6:4], and the record word REC = w1 (40 R90). -/
  | decrec (rlen : BitVec 3) (record : Word)
  /-- DECBUF: SRC (IBUF byte address), LEN (bytes), DST (OBUF entry index) (41 R100). -/
  | decbuf (src len dst : Word)
  /-- STAT: no operand (42 R120). -/
  | stat
deriving DecidableEq, Repr

end Sys2Proof
end

