-- ==== Sys2Proof/WellFormed.lean ====
section
/-! DEFINITION. When a request packet is well-formed: the four conditions of 30_encoding.md R66, as a check on the
packet. (A term of `Instr` carries its field widths in its type, so the check is on packets, as the spec has it.) -/

namespace Sys2Proof

/-- Condition (1) of R66: W >= 1. -/
def Packet.hasHeader (p : Packet) : Bool := decide (1 ≤ p.length)

/-- Condition (2) of R66: OP is 0x1, 0x2 or 0x3. -/
def headerOpKnown (h : Word) : Bool :=
  h.extractLsb' 0 4 == 1#4 || h.extractLsb' 0 4 == 2#4 || h.extractLsb' 0 4 == 3#4

/-- The packet length of R64 for the OP of a header; `none` for a reserved OP. -/
def headerWords (h : Word) : Option Nat :=
  if h.extractLsb' 0 4 = 1#4 then some 2
  else if h.extractLsb' 0 4 = 2#4 then some 4
  else if h.extractLsb' 0 4 = 3#4 then some 1
  else none

/-- Condition (3) of R66: W is the length R64 gives for the OP. -/
def Packet.lengthFitsOp (p : Packet) (h : Word) : Bool := decide (headerWords h = some p.length)

/-- Condition (4) of R66: RSV = 0, and RLEN = 0 when OP is not 0x1. -/
def headerReservedClear (h : Word) : Bool :=
  h.extractLsb' 7 25 == 0#25 && (h.extractLsb' 0 4 == 1#4 || h.extractLsb' 4 3 == 0#3)

/-- R66: a packet is well-formed if and only if all four conditions hold. -/
def Packet.wellFormed : Packet → Bool
  | [] => Packet.hasHeader []
  | h :: ws =>
    Packet.hasHeader (h :: ws) && headerOpKnown h && Packet.lengthFitsOp (h :: ws) h && headerReservedClear h

end Sys2Proof
end

