-- ==== Sys2Proof/Decode.lean ====
section
/-! DEFINITION. Decoding and encoding of request packets (30_encoding.md R61 to R73), and the assembler's request
syntax (R71). The decoder is written from the opcode map by mask and match (R72); the encoder after it from the header
fields (R63) and the operand words (R65). -/

namespace Sys2Proof

/-- Why a packet is none of the three requests (30_encoding.md R70). The hardware reports only IllegalRequest; which of
these names a packet gets is the model's own. DESIGN CHOICE, safe (log 11). -/
inductive Illegal where
  /-- W = 0 (R66 condition 1). -/
  | emptyPacket
  /-- OP 0x0 or 0x4 to 0xF (R64). -/
  | reservedOp
  /-- RSV is not 0 (R63). -/
  | reservedBits
  /-- RLEN is not 0 and OP is not 0x1 (R63). -/
  | rlenNotZero
  /-- W is not the length R64 gives for the OP. -/
  | wrongLength
deriving DecidableEq, Repr

/-- What a packet is: one of the three requests, or ILLEGAL (30_encoding.md R73). -/
inductive Req where
  | run (i : Instr)
  | illegal (why : Illegal)
deriving DecidableEq, Repr

/-- One row of the opcode map (30_encoding.md R72): header mask, header match, packet length W. -/
structure OpcodeRow where
  mask : Word
  pattern : Word
  words : Nat
deriving DecidableEq, Repr

/-- The DECREC row of R72. -/
def decrecRow : OpcodeRow := ⟨0xFFFFFF8F#32, 0x00000001#32, 2⟩

/-- The DECBUF row of R72. -/
def decbufRow : OpcodeRow := ⟨0xFFFFFFFF#32, 0x00000002#32, 4⟩

/-- The STAT row of R72. -/
def statRow : OpcodeRow := ⟨0xFFFFFFFF#32, 0x00000003#32, 1⟩

/-- A header is of a row when its bits under the mask are the row's match (R72). -/
def OpcodeRow.admits (r : OpcodeRow) (h : Word) : Bool := h &&& r.mask == r.pattern

/-- `OP = w0[3:0]` (R63). -/
def headerOp (h : Word) : BitVec 4 := h.extractLsb' 0 4

/-- `RLEN = w0[6:4]` (R63). -/
def headerRlen (h : Word) : BitVec 3 := h.extractLsb' 4 3

/-- `RSV = w0[31:7]` (R63). -/
def headerRsv (h : Word) : BitVec 25 := h.extractLsb' 7 25

/-- The packet length of an OP (R64); 0 for a reserved OP, which has none. -/
def opWords (op : BitVec 4) : Nat :=
  if op = 1#4 then decrecRow.words else if op = 2#4 then decbufRow.words else if op = 3#4 then statRow.words else 0

/-- Which reserved space a header that no row admits lies in (R70; log 11). -/
def headerIllegal (h : Word) : Illegal :=
  if opWords (headerOp h) = 0 then .reservedOp
  else if headerRsv h ≠ 0#25 then .reservedBits
  else .rlenNotZero

/-- The decoder: total, every packet exactly one request or ILLEGAL (R72, R73). -/
def decode : Packet → Req
  | [] => .illegal .emptyPacket
  | h :: ws =>
    if decrecRow.admits h then
      match ws with
      | [record] => .run (.decrec (headerRlen h) record)
      | _ => .illegal .wrongLength
    else if decbufRow.admits h then
      match ws with
      | [src, len, dst] => .run (.decbuf src len dst)
      | _ => .illegal .wrongLength
    else if statRow.admits h then
      match ws with
      | [] => .run .stat
      | _ => .illegal .wrongLength
    else .illegal (headerIllegal h)

/-- A header word `[RSV, RLEN, OP]` from its fields, RSV = 0 (R63). -/
def headerOf (rlen : BitVec 3) (op : BitVec 4) : Word := 0#25 ++ rlen ++ op

/-- The encoder: the packet of a request (R63, R64, R65). -/
def encode : Instr → Packet
  | .decrec rlen record => [headerOf rlen 1#4, record]
  | .decbuf src len dst => [headerOf 0#3 2#4, src, len, dst]
  | .stat => [headerOf 0#3 3#4]

/-- The record word of four record bytes, `REC[31:24] = b0` down to `REC[7:0] = b3` (R62). -/
def recordWord (b0 b1 b2 b3 : Byte) : Word := b0 ++ b1 ++ b2 ++ b3

/-- Assembler `DECREC rec, rlen` (R71). -/
def asmDecrecLen (record : Word) (rlen : BitVec 3) : Packet := encode (.decrec rlen record)

/-- Assembler `DECREC rec`: RLEN = 4 by default (R71). -/
def asmDecrec (record : Word) : Packet := asmDecrecLen record (BitVec.ofNat 3 Config.recordBytes)

/-- Assembler `DECREC.B b0, b1, b2, b3`, a pseudo-instruction for `DECREC` (R71). -/
def asmDecrecB (b0 b1 b2 b3 : Byte) : Packet := asmDecrec (recordWord b0 b1 b2 b3)

/-- Assembler `DECBUF src, len, dst` (R71). -/
def asmDecbuf (src len dst : Word) : Packet := encode (.decbuf src len dst)

/-- Assembler `STAT` (R71). -/
def asmStat : Packet := encode .stat

/-- Word k of an instruction numbered as the opcode table numbers it: bit 0 is the least significant bit of w0 and
word k begins at bit 32k; every bit from `nbits` up is 0. -/
def tableWordAt (nbits w k : Nat) : Word := BitVec.ofNat 32 ((w % 2 ^ nbits) >>> (32 * k))

/-- The packet of an instruction given as one number. The request port delivers a packet with its length W (R61),
which the number does not hold: W is the length R64 gives for the header's OP, or the words `nbits` covers where
these are more. DESIGN CHOICE, safe (log 8). -/
def tableWordPacket (nbits w : Nat) : Packet :=
  (List.range (max ((nbits + 31) / 32) (opWords (headerOp (tableWordAt nbits w 0))))).map (tableWordAt nbits w)

/-- The instruction the decoder reads from an opcode-table number. -/
def decodeTableWord (nbits w : Nat) : Option Instr :=
  match decode (tableWordPacket nbits w) with
  | .run i => some i
  | .illegal _ => none

end Sys2Proof
end

