-- ==== Sys2Proof/Machine/State.lean ====
section
/-! DEFINITION. The state of the CFD as plain data (10_state.md R20), the moves of its host (20_memory.md R47,
70_reset_and_hazards.md R150), the reasons a step can stop, and the state after reset (10_state.md R30). -/

namespace Sys2Proof.Machine

/-- The moves of the host, the only agent outside the CFD (60_exceptions.md R143). Each is taken whole, and the next
one only after it is done, so the host keeps the duties of 70_reset_and_hazards.md R153. DESIGN CHOICE, unsafe
for a host that breaks them (log 1). -/
inductive HostMove where
  /-- Send a request packet and take its response (30_encoding.md R61, R67). -/
  | request (packet : Packet)
  /-- `HostWriteIBUF(a, byte)` (20_memory.md R47). -/
  | writeIbuf (addr : Nat) (value : Byte)
  /-- `HostReadOBUF(j)` (20_memory.md R47). -/
  | readObuf (entry : Nat)
  /-- `RESET`, power-on included (70_reset_and_hazards.md R150). -/
  | reset
  /-- Send a request packet and assert `RESET` before its response (70 R150, R153: the request is abandoned).
  DEDUCED, safe (log 7). -/
  | abandon (packet : Packet)
deriving DecidableEq, Repr

/-- The state. `err`, `ibuf` and `obuf` are the architectural state, all of it (10_state.md R20). The two capacities
are parameters that no step changes (R28; DESIGN CHOICE, safe, log 3). The last three fields are the model's own: the
host's side of the port (DESIGN CHOICE: log 1, unsafe for a host that breaks R153; log 2, safe). -/
structure State where
  /-- `ERR`, the status register (10_state.md R24). -/
  err : BitVec 4
  /-- `IBUF`: the bytes written since reset, by rising address; an address not listed is unwritten (R29). -/
  ibuf : List Host.Cell
  /-- `OBUF`: the entries written since reset, by rising entry index; an index not listed is unwritten (R29). -/
  obuf : List (Nat × Entry)
  /-- `IBUF_BYTES` (00_scope.md R6). -/
  ibufBytes : Capacity
  /-- `OBUF_ENTRIES` (00_scope.md R6). -/
  obufEntries : Capacity
  /-- The host's moves not yet made, oldest first. -/
  pending : List HostMove
  /-- The response packets sent, oldest first. -/
  responses : List Packet
  /-- What the host's OBUF reads returned, oldest first: entry index and value. -/
  readouts : List (Nat × Entry)
deriving DecidableEq, Repr

/-- The model faults of 60_exceptions.md R138. Each is safe: the model stops where the hardware goes on with an
unspecified value. -/
inductive Fault where
  /-- Raised by DECBUF over an IBUF byte not written since reset (41_buffer_decode.md R102). Safe (log 4). -/
  | unwrittenInput
  /-- Raised by a host read of an OBUF entry not written since reset (20_memory.md R47). Safe (log 4). -/
  | unwrittenOutput
deriving DecidableEq, Repr

/-- What a step refuses, by name. No request is ever refused (60_exceptions.md section 6). -/
inductive Refusal where
  /-- An instruction with no meaning yet, raised by `exec` only. Safe. No arm uses it. -/
  | notModelled (mnemonic : String)
  /-- A host access outside IBUF or OBUF, which "has no move in the model" (20_memory.md R47). Raised by the host moves
  `writeIbuf` and `readObuf`. DESIGN CHOICE, unsafe for a host that makes one (log 5). -/
  | hostAccessOutOfRange
deriving DecidableEq, Repr

/-- The outcome of a step or of an instruction. -/
abbrev Result := Host.Outcome State Fault Refusal

/-- The state right after reset of a CFD with the given capacities (10_state.md R30). -/
def State.resetWith (ibufBytes obufEntries : Capacity) : State where
  err := 0#4
  ibuf := []
  obuf := []
  ibufBytes := ibufBytes
  obufEntries := obufEntries
  pending := []
  responses := []
  readouts := []

/-- The state right after reset, its capacities the two OPEN parameters (10_state.md R30, 00_scope.md R6; log 3). -/
def State.reset : State := State.resetWith Config.ibufBytes Config.obufEntries

end Sys2Proof.Machine
end

