-- ==== Sys2Proof/Machine/Flags.lean ====
section
/-! DEFINITION. The status of the CFD. It has no flags or condition codes (10_state.md R23): its only status is `ERR`,
the exception codes it holds, the STATUS word, and the ready and halted modes. -/

namespace Sys2Proof.Machine

/-- The hardware exceptions (60_exceptions.md R130). -/
inductive Cause where
  /-- Raised by DECREC: RLEN is not 4. -/
  | invalidRecordLength
  /-- Raised by DECBUF: LEN is not a multiple of 4. -/
  | invalidBufferLength
  /-- Raised by any packet that is not well-formed, on a ready CFD. -/
  | illegalRequest
  /-- Raised by DECBUF: a range outside IBUF or OBUF. -/
  | bufferRange
deriving DecidableEq, Repr

/-- `code(E)`, the value of ERR (60 R130). -/
def causeCode : Cause → BitVec 4
  | .invalidRecordLength => 1#4
  | .invalidBufferLength => 2#4
  | .illegalRequest => 3#4
  | .bufferRange => 4#4

/-- `STATUS = zext_32(ERR)`: bits [31:4] are hardwired to zero (10_state.md R24). -/
def statusWord (s : State) : Word := s.err.setWidth 32

/-- Ready if and only if ERR = 0, halted otherwise (10_state.md R25); a reserved ERR value, which no run
reaches, is halted too. DEDUCED, safe (log 12). -/
def isReady (s : State) : Bool := s.err == 0#4

end Sys2Proof.Machine
end

