-- ==== Sys2Proof/Machine/Ops.lean ====
section
/-! DEFINITION. The named operations over the two memories (20_memory.md R40 to R47), responding (30_encoding.md R67),
raising an exception (60_exceptions.md R131), answering while halted (R133) and reset (70_reset_and_hazards.md R150). -/

namespace Sys2Proof.Machine

/-- The canonical form of a memory: cells by strictly rising address. An unlisted address is unwritten (10_state.md
R29), and no cell can hold "unwritten", so two memories that read alike are equal. -/
abbrev Memory.wf {α : Type} (m : List (Nat × α)) : Prop := (m.map Prod.fst).Pairwise (· < ·)

/-- Every cell of a memory lies below its capacity (20_memory.md R40, R41). -/
abbrev Memory.within {α : Type} (m : List (Nat × α)) (size : Nat) : Prop := ∀ c ∈ m, c.1 < size

/-- What an address holds: `none` when it was not written since reset (10_state.md R29). DESIGN CHOICE, the
spec's own, safe (log 4). -/
def Memory.read {α : Type} : List (Nat × α) → Nat → Option α
  | [], _ => none
  | (b, w) :: m, a => if a = b then some w else Memory.read m a

/-- Write a value at an address, keeping the canonical form. -/
def Memory.write {α : Type} : List (Nat × α) → Nat → α → List (Nat × α)
  | [], a, v => [(a, v)]
  | (b, w) :: m, a, v =>
    if a < b then (a, v) :: (b, w) :: m
    else if a = b then (a, v) :: m
    else (b, w) :: Memory.write m a v

/-- `MemRead(addr, n)`: the n bytes from `addr` on, in address order (00_scope.md R9); `none` when one of them is
unwritten. -/
def memRead (ibuf : List Host.Cell) (addr : Nat) : Nat → Option (List Byte)
  | 0 => some []
  | n + 1 =>
    match Memory.read ibuf addr, memRead ibuf (addr + 1) n with
    | some b, some bs => some (b :: bs)
    | _, _ => none

/-- Send a response packet (00_scope.md R10). -/
def respond (words : Packet) (s : State) : State := { s with responses := s.responses ++ [words] }

/-- Answer a request: word 0 is always STATUS as it stands now, the rest follows (30_encoding.md R67). -/
def answer (rest : Packet) (s : State) : State := respond (statusWord s :: rest) s

/-- `MemWrite` of a whole run of OBUF entries: the new contents of OBUF (00_scope.md R9). -/
def setObuf (obuf : List (Nat × Entry)) (s : State) : State := { s with obuf := obuf }

/-- TAKING AN EXCEPTION (60_exceptions.md R131, 00_scope.md R10): no OBUF write, `ERR <- code(E)`, respond [STATUS].
Nothing else is saved and there is no handler. -/
def raise (e : Cause) (s : State) : State := answer [] { s with err := causeCode e }

/-- LEAVING THE HALT: RESET, the only way out, for there is no return from an exception (60 R137). It gives every piece
of architectural state its reset value (70 R150, 10_state.md R30) and sends no response. The parameters are not state
(R28), and the host's own moves and what it has received are not the CFD's: they stay. DEDUCED, safe (log 6). -/
def resetCfd (s : State) : State := { s with err := 0#4, ibuf := [], obuf := [] }

/-- A halted CFD answers any request with [STATUS] and changes nothing (60 R133, R135 rank 1); a ready one goes on. -/
def whenReady (s : State) (onReady : Result) : Result :=
  if isReady s then onReady else .next (answer [] s)

end Sys2Proof.Machine
end

