-- ==== Sys2Proof/Machine/Operands.lean ====
section
/-! DEFINITION. The operand forms: record bytes from IBUF (20_memory.md R43, R44), the one addressing mode of DECBUF, base
plus scaled index (41_buffer_decode.md R105), its range checks on mathematical integers (41 R100), and the words of a
DECREC response (30_encoding.md R67). -/

namespace Sys2Proof.Machine

/-- `N = LEN div 4`, the number of records of a buffer (41 R100). -/
def recordCount (len : Word) : Nat := len.toNat / Config.recordBytes

/-- LEN is a whole number of records (41 R100). -/
def lengthWhole (len : Word) : Bool := len.toNat % Config.recordBytes == 0

/-- `[SRC, SRC+LEN)` lies inside IBUF, with no wrap (41 R100). -/
def sourceInRange (src len : Word) (s : State) : Bool := decide (src.toNat + len.toNat ≤ s.ibufBytes.val)

/-- `[DST, DST+N)` lies inside OBUF, with no wrap (41 R100). -/
def destInRange (len dst : Word) (s : State) : Bool := decide (dst.toNat + recordCount len ≤ s.obufEntries.val)

/-- The effective byte address of record i, `SRC + 4*i` (41 R105, 20_memory.md R43). -/
def recordAddr (src i : Nat) : Nat := src + Config.recordBytes * i

/-- The record word at a byte address: b0 at the lowest address, in bits [31:24] (20_memory.md R43, R44); `none` when a
byte of it is unwritten. -/
def readRecord (ibuf : List Host.Cell) (addr : Nat) : Option Word :=
  match memRead ibuf addr Config.recordBytes with
  | some [b0, b1, b2, b3] => some (recordWord b0 b1 b2 b3)
  | _ => none

/-- DECBUF's loop from record i on for `n` records, in increasing order (41 R100, 20_memory.md R51): read record i at
`SRC + 4i`, decode it, write its VAL to entry `DST + i`. `none` when a byte is unwritten; a fault carries no state, so no
entry has then been written (41 R102). DEDUCED, safe (log 14). -/
def decodeRun (ibuf : List Host.Cell) (src dst i : Nat) (obuf : List (Nat × Entry)) : Nat → Option (List (Nat × Entry))
  | 0 => some obuf
  | n + 1 =>
    match readRecord ibuf (recordAddr src i) with
    | none => none
    | some record => decodeRun ibuf src dst (i + 1) (Memory.write obuf (dst + i) (decodeRecord record).val) n

/-- The words of a DECREC response after STATUS: FIELDS, then VAL and RAW, each low word first (30_encoding.md R67). -/
def decodedWords (d : Decoded) : Packet :=
  [d.exp ++ d.man, bv64lo d.val, bv64hi d.val, bv64lo d.raw, bv64hi d.raw]

end Sys2Proof.Machine
end

