-- ==== Sys2Proof/Machine/Decbuf.lean ====
section
/-! DEFINITION. DECBUF: decode a run of records from IBUF into OBUF (41_buffer_decode.md R100). -/

namespace Sys2Proof.Machine

/-- DECBUF (41 R100), its checks in the order of 60_exceptions.md R135: length, source range, destination range, then
the model fault of 41 R102, and only then the OBUF writes. -/
def execDecbuf (src len dst : Word) (s : State) : Result :=
  whenReady s <|
    if !lengthWhole len then .next (raise .invalidBufferLength s)
    else if !sourceInRange src len s then .next (raise .bufferRange s)
    else if !destInRange len dst s then .next (raise .bufferRange s)
    else
      match decodeRun s.ibuf src.toNat dst.toNat 0 s.obuf (recordCount len) with
      | none => .fault .unwrittenInput
      | some obuf => .next (answer [BitVec.ofNat 32 (recordCount len)] (setObuf obuf s))

end Sys2Proof.Machine
end

