-- ==== Sys2Proof/Machine/Decrec.lean ====
section
/-! DEFINITION. DECREC: decode one record (40_record_decode.md R90). -/

namespace Sys2Proof.Machine

/-- DECREC (40 R90). When RLEN is not 4 the record word is ignored and InvalidRecordLength is raised, for short and long
records alike (90_conflicts.md C3); otherwise the response is STATUS and the decoded words. No memory is touched. -/
def execDecrec (rlen : BitVec 3) (record : Word) (s : State) : Result :=
  whenReady s <|
    if rlen.toNat ≠ Config.recordBytes then .next (raise .invalidRecordLength s)
    else .next (answer (decodedWords (decodeRecord record)) s)

end Sys2Proof.Machine
end

