-- ==== Sys2Proof/Machine/Stat.lean ====
section
/-! DEFINITION. STAT: read the status (42_status.md R120). -/

namespace Sys2Proof.Machine

/-- STAT (42 R120): respond [STATUS] and change nothing, on a ready CFD and on a halted one. -/
def execStat (s : State) : Result := .next (answer [] s)

end Sys2Proof.Machine
end

