-- ==== Sys2Proof/Machine/Dispatch.lean ====
section
/-! DEFINITION. The meaning of every request, one arm per constructor of `Instr`. -/

namespace Sys2Proof.Machine

def exec (i : Instr) (s : State) : Host.Outcome State Fault Refusal :=
  match i with
  | .decrec rlen record => Sys2Proof.Machine.execDecrec rlen record s
  | .decbuf src len dst => Sys2Proof.Machine.execDecbuf src len dst s
  | .stat => Sys2Proof.Machine.execStat s

end Sys2Proof.Machine
end

