-- ==== Sys2Proof/Machine/HostPort.lean ====
section
/-! DEFINITION. The request port (30_encoding.md R61) and the host's moves (20_memory.md R47, 70_reset_and_hazards.md
R150): what the CFD does with each of them. -/

namespace Sys2Proof.Machine

/-- What a packet that is not well-formed does: IllegalRequest on a ready CFD, and it is not executed (60_exceptions.md
R134); on a halted one the answer of R133. -/
def serveIllegal (s : State) : Result := whenReady s (.next (raise .illegalRequest s))

/-- Serve one request packet: decode it and run the request, or treat it as illegal (30 R73). -/
def serve (packet : Packet) (s : State) : Result :=
  match decode packet with
  | .run i => exec i s
  | .illegal _ => serveIllegal s

/-- `HostWriteIBUF(a, byte)` for a < IBUF_BYTES (20_memory.md R47). Outside it the spec has no move: refused.
DESIGN CHOICE, unsafe for a host that makes one (log 5). -/
def hostWriteIbuf (addr : Nat) (value : Byte) (s : State) : Result :=
  if addr < s.ibufBytes.val then .next { s with ibuf := Memory.write s.ibuf addr value }
  else .refused .hostAccessOutOfRange

/-- `HostReadOBUF(j)` for j < OBUF_ENTRIES (20_memory.md R47): returns the entry and changes nothing in the CFD, or is
the model fault UnwrittenOutput. Outside OBUF the spec has no move: refused. DESIGN CHOICE, unsafe for a
host that makes one (log 5). -/
def hostReadObuf (entry : Nat) (s : State) : Result :=
  if entry < s.obufEntries.val then
    match Memory.read s.obuf entry with
    | none => .fault .unwrittenOutput
    | some v => .next { s with readouts := s.readouts ++ [(entry, v)] }
  else .refused .hostAccessOutOfRange

/-- One move of the host. An abandoned request leaves what RESET leaves and has no response (70 R150). DEDUCED, safe
(log 7). -/
def hostMove (m : HostMove) (s : State) : Result :=
  match m with
  | .request packet => serve packet s
  | .writeIbuf addr value => hostWriteIbuf addr value s
  | .readObuf entry => hostReadObuf entry s
  | .reset => .next (resetCfd s)
  | .abandon _ => .next (resetCfd s)

/-- The pending move is made, and no longer pending; with none the CFD waits (60_exceptions.md R145). DEDUCED,
safe (log 15). -/
def nextMove (s : State) : Result :=
  match s.pending with
  | [] => .next s
  | m :: rest => hostMove m { s with pending := rest }

/-- The host sends a packet as its very next move. -/
def sendNext (packet : Packet) (s : State) : State := { s with pending := .request packet :: s.pending }

/-- `LOADI a, byte0, byte1, ...`: HostWriteIBUF(a+k, byte_k) for each k (30_encoding.md R71). -/
def loadi (addr : Nat) : List Byte → List HostMove
  | [] => []
  | b :: bs => .writeIbuf addr b :: loadi (addr + 1) bs

end Sys2Proof.Machine
end

