-- ==== Sys2Proof/Machine/Step.lean ====
section
/-! DEFINITION. One step: the CFD takes the host's next move, whole (20_memory.md R47, R50). With none pending it waits
and keeps all its state (60_exceptions.md R145). -/

namespace Sys2Proof.Machine

/-- One step. Three outcomes: a next state, a model fault (60 R138), or a refusal (20 R47). -/
def step (s : State) : Host.Outcome State Fault Refusal := nextMove s

/-- The state in which the very next step serves the request that an opcode-table number stands for: the host's next
move sends it. DESIGN CHOICE, safe (log 8). -/
def State.withFetchWord (s : State) (nbits w : Nat) : State := sendNext (tableWordPacket nbits w) s

end Sys2Proof.Machine
end

