-- ==== Sys2Proof/Safety.lean ====
section
/-! DEFINITION. The terms the statements use: the outcome of a step as data, the invariant of the machine, a buffer the
host has loaded, and a run without an error. -/

namespace Sys2Proof.Machine

/-- The next state of an outcome, if it has one. -/
def nextOf : Result → Option State
  | .next s => some s
  | .fault _ => none
  | .refused _ => none

/-- The model fault of an outcome, if it is one. -/
def faultOf : Result → Option Fault
  | .next _ => none
  | .fault f => some f
  | .refused _ => none

/-- ERR holds a legal value, 0 to 4 (10_state.md R24, 60_exceptions.md R130; log 12). -/
abbrev State.errLegal (s : State) : Prop := s.err.toNat ≤ 4

/-- The invariant: ERR is legal, and each memory is in its canonical form and inside its buffer. -/
abbrev State.Inv (s : State) : Prop :=
  s.errLegal ∧ Memory.wf s.ibuf ∧ Memory.within s.ibuf s.ibufBytes.val ∧
    Memory.wf s.obuf ∧ Memory.within s.obuf s.obufEntries.val

/-- The host has written every byte of `[a, a+n)` since reset (70_reset_and_hazards.md R152). -/
abbrev Loaded (s : State) (a n : Nat) : Prop := ∀ k, k < n → (Memory.read s.ibuf (a + k)).isSome

/-- A run that ends in this state had no hardware exception since reset: "every claim about a fault-free run takes ERR = 0
at its end as a premise" (60_exceptions.md R133). -/
abbrev State.errorFree (s : State) : Prop := s.err = 0#4

/-- The request a state is about to serve, if the host's next move is one. -/
def State.nextPacket (s : State) : Option Packet :=
  match s.pending with
  | .request p :: _ => some p
  | _ => none

end Sys2Proof.Machine
end

