-- ==== Sys2Proof/Certificates/Slice0/Obligations.lean ====
section
/-! DEFINITION. The statements for the provers, from the numbered rules of spec/. `e = int(b0) - 128` and `m` are written
out in each statement from the bits of the record word, not through the model's own sub-units, wherever a statement says
what a value is. -/

open Sys2Proof Sys2Proof.Machine

/-! ### Encoding -/

/-- Tier 3. Decoding and encoding agree in both directions: a packet decodes to a request exactly when it is that
request's packet, so no bit of an encoding is dropped and no other packet is taken for it (30_encoding.md R63 to R65,
R72, R73). -/
def Obligations.DecodeIsExactlyEncode : Prop :=
  ∀ (p : Packet) (i : Instr), decode p = .run i ↔ p = encode i

/-- The packets that decode to a request are exactly the well-formed ones of R66's pseudocode, and every RLEN is
well-formed for DECREC (30_encoding.md R66, R73). -/
def Obligations.WellFormedPacketsAreTheRequests : Prop :=
  (∀ p : Packet, Packet.wellFormed p = true ↔
    ∃ (h : Word) (ws : List Word), p = h :: ws ∧ h.extractLsb' 7 25 = 0#25 ∧
      ((h.extractLsb' 0 4 = 1#4 ∧ p.length = 2) ∨
       (h.extractLsb' 0 4 = 2#4 ∧ h.extractLsb' 4 3 = 0#3 ∧ p.length = 4) ∨
       (h.extractLsb' 0 4 = 3#4 ∧ h.extractLsb' 4 3 = 0#3 ∧ p.length = 1))) ∧
  (∀ p : Packet, Packet.wellFormed p = true ↔ ∃ i : Instr, decode p = .run i) ∧
  (∀ p : Packet, Packet.wellFormed p = false ↔ ∃ why : Illegal, decode p = .illegal why) ∧
  (∀ (rlen : BitVec 3) (record : Word), Packet.wellFormed [0#25 ++ rlen ++ 1#4, record] = true)

/-- The opcode map by header mask and match (30_encoding.md R72): each row's packets, with their free header fields and
operands, decode to that row; every other packet raises IllegalRequest on a ready CFD. -/
def Obligations.OpcodeMapByMaskAndMatch : Prop :=
  (∀ (p : Packet) (rlen : BitVec 3) (record : Word), decode p = .run (.decrec rlen record) ↔
    ∃ w0 : Word, p = [w0, record] ∧ w0 &&& 0xFFFFFF8F#32 = 0x00000001#32 ∧ w0.extractLsb' 4 3 = rlen) ∧
  (∀ (p : Packet) (src len dst : Word), decode p = .run (.decbuf src len dst) ↔
    ∃ w0 : Word, p = [w0, src, len, dst] ∧ w0 &&& 0xFFFFFFFF#32 = 0x00000002#32) ∧
  (∀ p : Packet, decode p = .run .stat ↔
    ∃ w0 : Word, p = [w0] ∧ w0 &&& 0xFFFFFFFF#32 = 0x00000003#32) ∧
  (∀ (s : State) (w0 : Word) (ws : List Word), s.err = 0#4 →
    ((w0 &&& 0xFFFFFF8F#32 = 0x00000001#32 ∧ (w0 :: ws).length ≠ 2) ∨
     (w0 &&& 0xFFFFFFFF#32 = 0x00000002#32 ∧ (w0 :: ws).length ≠ 4) ∨
     (w0 &&& 0xFFFFFFFF#32 = 0x00000003#32 ∧ (w0 :: ws).length ≠ 1) ∨
     (w0 &&& 0xFFFFFF8F#32 ≠ 0x00000001#32 ∧ w0 &&& 0xFFFFFFFF#32 ≠ 0x00000002#32 ∧
       w0 &&& 0xFFFFFFFF#32 ≠ 0x00000003#32)) →
    serve (w0 :: ws) s = .next { s with err := 3#4, responses := s.responses ++ [[3#32]] }) ∧
  (∀ s : State, s.err = 0#4 →
    serve [] s = .next { s with err := 3#4, responses := s.responses ++ [[3#32]] })

/-- Words written out from the encodings of the spec: four packets decode to the requests they stand for, three others
are illegal, and the pseudo-instruction DECREC.B assembles to its packet (30_encoding.md R62, R63, R64, R70, R71). WHICH
reason name an illegal packet gets is the model's choice (DESIGN CHOICE, log 11); that it is illegal is R70. -/
def Obligations.SpecWordsDecode : Prop :=
  decode [0x00000041#32, 0x80004000#32] = .run (.decrec 4#3 0x80004000#32) ∧
  decode [0x00000051#32, 0x80004000#32] = .run (.decrec 5#3 0x80004000#32) ∧
  decode [0x00000002#32, 8#32, 16#32, 2#32] = .run (.decbuf 8#32 16#32 2#32) ∧
  decode [0x00000003#32] = .run .stat ∧
  decode [0x00000012#32, 0#32, 0#32, 0#32] = .illegal .rlenNotZero ∧
  decode [0x80000002#32, 0#32, 0#32, 0#32] = .illegal .reservedBits ∧
  decode [0x00000000#32] = .illegal .reservedOp ∧
  asmDecrecB 128#8 0#8 64#8 0#8 = [0x00000041#32, 0x80004000#32]

/-! ### The datapath -/

/-- biased_exponent_extraction (40_record_decode.md R80): e = int(b0) - 128, in -128 to 127, EXP is e as an s8 byte, and
every value of the range is reached exactly once. -/
def Obligations.BiasedExponentExtraction : Prop :=
  (∀ b0 : Byte, biasedExponentExtraction b0 = (b0.toNat : Int) - 128 ∧
    -128 ≤ biasedExponentExtraction b0 ∧ biasedExponentExtraction b0 ≤ 127 ∧
    exponentByte b0 = b0 ^^^ 0x80#8 ∧ (exponentByte b0).toInt = biasedExponentExtraction b0) ∧
  (∀ e : Int, -128 ≤ e → e ≤ 127 →
    ∃ b0 : Byte, biasedExponentExtraction b0 = e ∧ ∀ b : Byte, biasedExponentExtraction b = e → b = b0)

/-- 24bit_mantissa_reconstruction (40_record_decode.md R81): the OR of the shifted bytes is their sum and is REC[23:0], and
every u24 is reached by exactly one triple of bytes. -/
def Obligations.MantissaReconstruction : Prop :=
  (∀ b1 b2 b3 : Byte,
    (mantissaReconstruction b1 b2 b3).toNat = 65536 * b1.toNat + 256 * b2.toNat + b3.toNat) ∧
  (∀ b0 b1 b2 b3 : Byte, mantissaReconstruction b1 b2 b3 = (recordWord b0 b1 b2 b3).extractLsb' 0 24) ∧
  (∀ m : Mantissa, ∃ b1 b2 b3 : Byte, mantissaReconstruction b1 b2 b3 = m ∧
    ∀ c1 c2 c3 : Byte, mantissaReconstruction c1 c2 c3 = m → c1 = b1 ∧ c2 = b2 ∧ c3 = b3)

/-- scaled_power_of_two_multiplier (40_record_decode.md R82): raw is m * 2^e and scaled is raw / 2^22, as exact rationals,
with the corner values of the rule as bounds. -/
def Obligations.MultiplierIsExact : Prop :=
  ∀ (m : Mantissa) (e : Int),
    scaledValue (multiplierRaw m e) = (m.toNat : ℚ) * (2 : ℚ) ^ e ∧
    scaledValue (multiplierScaled m e) = scaledValue (multiplierRaw m e) / 2 ^ 22 ∧
    scaledValue (multiplierScaled m e) = (m.toNat : ℚ) * (2 : ℚ) ^ (e - 22) ∧
    (m = 0#24 → scaledValue (multiplierRaw m e) = 0 ∧ scaledValue (multiplierScaled m e) = 0) ∧
    (m ≠ 0#24 → -128 ≤ e → e ≤ 127 →
      (2 : ℚ) ^ (-150 : Int) ≤ scaledValue (multiplierScaled m e) ∧
      scaledValue (multiplierScaled m e) ≤ (2 ^ 24 - 1) * (2 : ℚ) ^ (105 : Int))

/-- f64bits (40_record_decode.md R84): zero gives all zero bits; otherwise sign 0, exponent field 1023 + p + k and fraction
(m - 2^p) * 2^(52-p) with p = msb(m), none of them truncated, and the pattern stands for exactly m * 2^k. -/
def Obligations.F64BitsIsExact : Prop :=
  (∀ k : Int, f64bits 0 k = 0#64 ∧ f64value (f64bits 0 k) = some 0) ∧
  (∀ (m p : Nat) (k : Int), 2 ^ p ≤ m → m < 2 ^ (p + 1) → p ≤ 23 →
    1 ≤ 1023 + (p : Int) + k → 1023 + (p : Int) + k ≤ 2046 →
    f64sign (f64bits m k) = 0#1 ∧
    ((f64expo (f64bits m k)).toNat : Int) = 1023 + (p : Int) + k ∧
    (f64frac (f64bits m k)).toNat = (m - 2 ^ p) * 2 ^ (52 - p) ∧
    f64value (f64bits m k) = some ((m : ℚ) * (2 : ℚ) ^ k))

/-- Every record decodes with no rounding: VAL stands for exactly m * 2^(int(b0) - 150) and RAW for exactly
m * 2^(int(b0) - 128), for all 2^32 records (40_record_decode.md R83). -/
def Obligations.DecodedValuesAreExact : Prop :=
  ∀ record : Word,
    f64value (decodeRecord record).val =
      some (((record.extractLsb' 0 24).toNat : ℚ) * (2 : ℚ) ^ (((record.extractLsb' 24 8).toNat : Int) - 150)) ∧
    f64value (decodeRecord record).raw =
      some (((record.extractLsb' 0 24).toNat : ℚ) * (2 : ℚ) ^ (((record.extractLsb' 24 8).toNat : Int) - 128))

/-- Which patterns come out (40_record_decode.md R85): VAL and RAW are f64bits of m at int(b0) - 150 and int(b0) - 128; the
sign is 0; a nonzero output is a normal number with the exponent field of the rule; m = 0 gives all zero bits. -/
def Obligations.OutputPatternsAreNormal : Prop :=
  ∀ (record : Word) (p : Nat),
    let m := (record.extractLsb' 0 24).toNat
    let b0 := (record.extractLsb' 24 8).toNat
    (decodeRecord record).val = f64bits m ((b0 : Int) - 150) ∧
    (decodeRecord record).raw = f64bits m ((b0 : Int) - 128) ∧
    f64sign (decodeRecord record).val = 0#1 ∧ f64sign (decodeRecord record).raw = 0#1 ∧
    (m = 0 → (decodeRecord record).val = 0#64 ∧ (decodeRecord record).raw = 0#64) ∧
    (2 ^ p ≤ m → m < 2 ^ (p + 1) →
      (f64expo (decodeRecord record).val).toNat = p + b0 + 873 ∧
      873 ≤ p + b0 + 873 ∧ p + b0 + 873 ≤ 1151 ∧
      (f64expo (decodeRecord record).raw).toNat = p + b0 + 895 ∧
      895 ≤ p + b0 + 895 ∧ p + b0 + 895 ≤ 1173)

/-- The whole datapath (40_record_decode.md R86): EXP, MAN, VAL and RAW from the four bytes of the record word. -/
def Obligations.DatapathOfRecordBytes : Prop :=
  ∀ b0 b1 b2 b3 : Byte,
    let e : Int := (b0.toNat : Int) - 128
    let m : Nat := 65536 * b1.toNat + 256 * b2.toNat + b3.toNat
    (decodeRecord (recordWord b0 b1 b2 b3)).exp = b0 ^^^ 0x80#8 ∧
    (decodeRecord (recordWord b0 b1 b2 b3)).man.toNat = m ∧
    (decodeRecord (recordWord b0 b1 b2 b3)).val = f64bits m (e - 22) ∧
    (decodeRecord (recordWord b0 b1 b2 b3)).raw = f64bits m e

/-- Monotonic scaling (40_record_decode.md R87): with the mantissa bytes held, the next exponent byte doubles the value of
VAL and of RAW; their patterns grow by 2^52 when m is not 0, and stay 0 when it is. -/
def Obligations.NextExponentDoubles : Prop :=
  ∀ b0 b1 b2 b3 : Byte, b0.toNat < 255 →
    let d := decodeRecord (recordWord b0 b1 b2 b3)
    let d' := decodeRecord (recordWord (b0 + 1#8) b1 b2 b3)
    (∃ x : ℚ, f64value d.val = some x ∧ f64value d'.val = some (2 * x)) ∧
    (∃ x : ℚ, f64value d.raw = some x ∧ f64value d'.raw = some (2 * x)) ∧
    (¬ (b1 = 0#8 ∧ b2 = 0#8 ∧ b3 = 0#8) →
      d'.val = d.val + 0x0010000000000000#64 ∧ d'.raw = d.raw + 0x0010000000000000#64) ∧
    (b1 = 0#8 ∧ b2 = 0#8 ∧ b3 = 0#8 →
      d.val = 0#64 ∧ d'.val = 0#64 ∧ d.raw = 0#64 ∧ d'.raw = 0#64)

/-- Two records decode to the same output pattern exactly when they stand for the same number: no two patterns for one
value, and no value lost, though the record format is not normalised (30_encoding.md R60, 40_record_decode.md R83). -/
def Obligations.SamePatternIffSameValue : Prop :=
  ∀ r r' : Word, (decodeRecord r).val = (decodeRecord r').val ↔
    (r.extractLsb' 0 24).toNat * 2 ^ (r.extractLsb' 24 8).toNat =
      (r'.extractLsb' 0 24).toNat * 2 ^ (r'.extractLsb' 24 8).toNat

/-! ### DECREC -/

/-- DECREC (40_record_decode.md R90): its encoding, its response on a ready CFD when RLEN is 4, with the whole next state,
and InvalidRecordLength when RLEN is anything else, whatever REC is. -/
def Obligations.DecrecRequest : Prop :=
  (∀ (p : Packet) (rlen : BitVec 3) (record : Word), decode p = .run (.decrec rlen record) ↔
    ∃ w0 : Word, p = [w0, record] ∧ w0 &&& 0xFFFFFF8F#32 = 0x00000001#32 ∧ w0.extractLsb' 4 3 = rlen) ∧
  (∀ (s : State) (record : Word), s.err = 0#4 →
    let exp : BitVec 8 := record.extractLsb' 24 8 ^^^ 0x80#8
    let man : BitVec 24 := record.extractLsb' 0 24
    let val := f64bits man.toNat (((record.extractLsb' 24 8).toNat : Int) - 150)
    let raw := f64bits man.toNat (((record.extractLsb' 24 8).toNat : Int) - 128)
    exec (.decrec 4#3 record) s = .next { s with responses := s.responses ++
      [[0#32, exp ++ man, val.extractLsb' 0 32, val.extractLsb' 32 32, raw.extractLsb' 0 32, raw.extractLsb' 32 32]] }) ∧
  (∀ (s : State) (rlen : BitVec 3) (record : Word), s.err = 0#4 → rlen ≠ 4#3 →
    exec (.decrec rlen record) s = .next { s with err := 1#4, responses := s.responses ++ [[1#32]] })

/-! ### DECBUF -/

/-- DECBUF (41_buffer_decode.md R100): its encoding; InvalidBufferLength and BufferRange with the whole next state
each; and, when every check passes and the host has loaded the buffer, completion: the response [0, N], entry DST+i the
VAL of the record at SRC+4i for every i below N, every other entry as it was, and nothing else changed. -/
def Obligations.DecbufRequest : Prop :=
  (∀ (p : Packet) (src len dst : Word),
    decode p = .run (.decbuf src len dst) ↔ p = [0x00000002#32, src, len, dst]) ∧
  (∀ (s : State) (src len dst : Word), s.err = 0#4 → len.toNat % 4 ≠ 0 →
    exec (.decbuf src len dst) s = .next { s with err := 2#4, responses := s.responses ++ [[2#32]] }) ∧
  (∀ (s : State) (src len dst : Word), s.err = 0#4 → len.toNat % 4 = 0 →
    (src.toNat + len.toNat > s.ibufBytes.val ∨ dst.toNat + len.toNat / 4 > s.obufEntries.val) →
    exec (.decbuf src len dst) s = .next { s with err := 4#4, responses := s.responses ++ [[4#32]] }) ∧
  (∀ (s : State) (src len dst : Word), s.err = 0#4 → len.toNat % 4 = 0 →
    src.toNat + len.toNat ≤ s.ibufBytes.val → dst.toNat + len.toNat / 4 ≤ s.obufEntries.val →
    Memory.wf s.obuf → Loaded s src.toNat len.toNat →
    ∃ ob : List (Nat × Entry),
      exec (.decbuf src len dst) s =
        .next { s with obuf := ob, responses := s.responses ++ [[0#32, BitVec.ofNat 32 (len.toNat / 4)]] } ∧
      (∀ (i : Nat) (b0 b1 b2 b3 : Byte), i < len.toNat / 4 →
        Memory.read s.ibuf (src.toNat + 4 * i) = some b0 → Memory.read s.ibuf (src.toNat + 4 * i + 1) = some b1 →
        Memory.read s.ibuf (src.toNat + 4 * i + 2) = some b2 → Memory.read s.ibuf (src.toNat + 4 * i + 3) = some b3 →
        Memory.read ob (dst.toNat + i) =
          some (f64bits (65536 * b1.toNat + 256 * b2.toNat + b3.toNat) ((b0.toNat : Int) - 150))) ∧
      (∀ j : Nat, (j < dst.toNat ∨ dst.toNat + len.toNat / 4 ≤ j) → Memory.read ob j = Memory.read s.obuf j))

/-- An empty buffer is no error and writes nothing (41_buffer_decode.md R100, corner case LEN = 0). -/
def Obligations.EmptyBufferWritesNothing : Prop :=
  ∀ (s : State) (src dst : Word), s.err = 0#4 → src.toNat ≤ s.ibufBytes.val → dst.toNat ≤ s.obufEntries.val →
    exec (.decbuf src 0#32 dst) s = .next { s with responses := s.responses ++ [[0#32, 0#32]] }

/-- The model fault UnwrittenInput (41_buffer_decode.md R102): DECBUF is that fault exactly when the hardware checks pass on
a ready CFD and some byte of [SRC, SRC+LEN) has not been written. -/
def Obligations.DecbufUnwrittenInput : Prop :=
  ∀ (s : State) (src len dst : Word),
    exec (.decbuf src len dst) s = .fault .unwrittenInput ↔
      s.err = 0#4 ∧ len.toNat % 4 = 0 ∧ src.toNat + len.toNat ≤ s.ibufBytes.val ∧
      dst.toNat + len.toNat / 4 ≤ s.obufEntries.val ∧
      ∃ k, k < len.toNat ∧ Memory.read s.ibuf (src.toNat + k) = none

/-- DECBUF is decode_record on each record (41_buffer_decode.md R101): when it completes, entry DST+i holds the very VAL
that DECREC sends for the four bytes of record i, which is the exact value of that record, and the response's N is LEN/4. -/
def Obligations.DecbufAgreesWithDecrec : Prop :=
  ∀ (s t : State) (src len dst : Word), s.err = 0#4 → Memory.wf s.obuf →
    exec (.decbuf src len dst) s = .next t → t.err = 0#4 →
    t.responses = s.responses ++ [[0#32, BitVec.ofNat 32 (len.toNat / 4)]] ∧
    ∀ i, i < len.toNat / 4 → ∃ (b0 b1 b2 b3 : Byte) (fields rawLo rawHi : Word) (v : Entry),
      Memory.read s.ibuf (src.toNat + 4 * i) = some b0 ∧ Memory.read s.ibuf (src.toNat + 4 * i + 1) = some b1 ∧
      Memory.read s.ibuf (src.toNat + 4 * i + 2) = some b2 ∧ Memory.read s.ibuf (src.toNat + 4 * i + 3) = some b3 ∧
      exec (.decrec 4#3 (b0 ++ b1 ++ b2 ++ b3)) s = .next { s with responses := s.responses ++
        [[0#32, fields, v.extractLsb' 0 32, v.extractLsb' 32 32, rawLo, rawHi]] } ∧
      Memory.read t.obuf (dst.toNat + i) = some v ∧
      f64value v = some (((65536 * b1.toNat + 256 * b2.toNat + b3.toNat : Nat) : ℚ) * (2 : ℚ) ^ ((b0.toNat : Int) - 150))

/-- Records are independent (20_memory.md R56): the entry DECBUF writes for a record depends only on the record's four
bytes, not on the rest of the state, the place of the record, the operands, or any earlier request. -/
def Obligations.EntryDependsOnlyOnItsRecord : Prop :=
  ∀ (s t s' t' : State) (src len dst src' len' dst' : Word) (i i' : Nat),
    s.err = 0#4 → s'.err = 0#4 → Memory.wf s.obuf → Memory.wf s'.obuf →
    exec (.decbuf src len dst) s = .next t → t.err = 0#4 →
    exec (.decbuf src' len' dst') s' = .next t' → t'.err = 0#4 →
    i < len.toNat / 4 → i' < len'.toNat / 4 →
    (∀ k, k < 4 →
      Memory.read s.ibuf (src.toNat + 4 * i + k) = Memory.read s'.ibuf (src'.toNat + 4 * i' + k)) →
    Memory.read t.obuf (dst.toNat + i) = Memory.read t'.obuf (dst'.toNat + i')

/-- A buffer decoded in two parts, one DECBUF after the other, leaves the same OBUF as one DECBUF over the whole buffer
(41_buffer_decode.md R103, 20_memory.md R51, R56). -/
def Obligations.SplitBufferSameOutput : Prop :=
  ∀ (s t : State) (src len dst len1 len2 src2 dst2 : Word), s.err = 0#4 →
    len.toNat = len1.toNat + len2.toNat → len1.toNat % 4 = 0 →
    src2.toNat = src.toNat + len1.toNat → dst2.toNat = dst.toNat + len1.toNat / 4 →
    exec (.decbuf src len dst) s = .next t → t.err = 0#4 →
    ∃ u v : State, exec (.decbuf src len1 dst) s = .next u ∧ u.err = 0#4 ∧
      exec (.decbuf src2 len2 dst2) u = .next v ∧ v.err = 0#4 ∧ v.obuf = t.obuf ∧ v.ibuf = t.ibuf

/-! ### STAT and the status -/

/-- STAT (42_status.md R120): its encoding, and on a ready CFD and on a halted one alike the response [zext_32(ERR)] and no
other change. -/
def Obligations.StatRequest : Prop :=
  (∀ p : Packet, decode p = .run .stat ↔ p = [0x00000003#32]) ∧
  ∀ s : State, exec .stat s = .next { s with responses := s.responses ++ [[s.err.setWidth 32]] }

/-- STATUS shows ERR in [3:0] and zeros above (10_state.md R24); it is 0 exactly on a ready CFD (R25). -/
def Obligations.StatusWordShowsErr : Prop :=
  ∀ s : State, (statusWord s).extractLsb' 0 4 = s.err ∧ (statusWord s).extractLsb' 4 28 = 0#28 ∧
    (statusWord s = 0#32 ↔ isReady s = true) ∧ (isReady s = true ↔ s.err = 0#4)

/-! ### Exceptions and the halt -/

/-- A packet that is not well-formed raises IllegalRequest on a ready CFD and is not executed (60_exceptions.md R134). -/
def Obligations.IllegalPacketRaises : Prop :=
  ∀ (s : State) (p : Packet), s.err = 0#4 → Packet.wellFormed p = false →
    serve p s = .next { s with err := 3#4, responses := s.responses ++ [[3#32]] }

/-- Exception entry (60_exceptions.md R131): whatever request raises whatever exception on a ready CFD, the next state is the
old one with ERR <- code(E) and the response [zext_32(ERR)]: no OBUF write and nothing else saved. -/
def Obligations.ExceptionEntry : Prop :=
  ∀ (s t : State) (p : Packet), s.err = 0#4 → serve p s = .next t → t.err ≠ 0#4 →
    ∃ e : Cause, t = { s with err := causeCode e, responses := s.responses ++ [[(causeCode e).setWidth 32]] }

/-- The halt (60_exceptions.md R133): a halted CFD answers every packet, of any length and well-formed or not, with
[zext_32(ERR)] and changes nothing else, ERR included; and only reset (asserted alone or to abandon a request) makes it
ready again, with ERR = 0 (70_reset_and_hazards.md R150), every other step keeping ERR. R133 says that ERR is never
cleared by a step: that RESET is itself a step here, so that R133's sentence is read of requests, is the model's reading
(DEDUCED, log 6), and that a request abandoned by RESET leaves what RESET leaves is log 7 (DEDUCED). -/
def Obligations.HaltedUntilReset : Prop :=
  (∀ (s : State) (p : Packet), s.err ≠ 0#4 →
    serve p s = .next { s with responses := s.responses ++ [[s.err.setWidth 32]] }) ∧
  (∀ s t : State, s.err ≠ 0#4 → step s = .next t →
    (t.err = s.err ∨ (t.err = 0#4 ∧
      ∃ rest, s.pending = .reset :: rest ∨ ∃ p : Packet, s.pending = .abandon p :: rest)))

/-- The priority of the checks (60_exceptions.md R135): which ERR a request leaves, by the ranks of the rule, and that the
model fault comes after them all. -/
def Obligations.PriorityOfChecks : Prop :=
  ∀ (s : State) (p : Packet) (code : BitVec 4),
    code = (if s.err ≠ 0#4 then s.err
      else if Packet.wellFormed p = false then 3#4
      else match decode p with
        | .run (.decrec rlen _) => if rlen ≠ 4#3 then 1#4 else 0#4
        | .run (.decbuf src len dst) =>
          if len.toNat % 4 ≠ 0 then 2#4
          else if src.toNat + len.toNat > s.ibufBytes.val then 4#4
          else if dst.toNat + len.toNat / 4 > s.obufEntries.val then 4#4
          else 0#4
        | .run .stat => 0#4
        | .illegal _ => 3#4) →
    (∀ t : State, serve p s = .next t → t.err = code) ∧
    (∀ f : Fault, serve p s = .fault f → code = 0#4)

/-- One response per request (30_encoding.md R67): word 0 is STATUS as it stands after the request, the other words are
those of the completed request and there are none where an exception was raised or the CFD is halted; word 0 alone tells
success from failure. -/
def Obligations.OneResponsePerRequest : Prop :=
  ∀ (s t : State) (p : Packet), serve p s = .next t →
    ∃ rest : Packet, t.responses = s.responses ++ [t.err.setWidth 32 :: rest] ∧
      ((t.err.setWidth 32 : Word) = 0#32 ↔ t.err = 0#4) ∧
      (t.err ≠ 0#4 → rest = []) ∧
      (∀ (rlen : BitVec 3) (record : Word), t.err = 0#4 → decode p = .run (.decrec rlen record) →
        let val := f64bits (record.extractLsb' 0 24).toNat (((record.extractLsb' 24 8).toNat : Int) - 150)
        let raw := f64bits (record.extractLsb' 0 24).toNat (((record.extractLsb' 24 8).toNat : Int) - 128)
        rest = [(record.extractLsb' 24 8 ^^^ 0x80#8) ++ record.extractLsb' 0 24,
          val.extractLsb' 0 32, val.extractLsb' 32 32, raw.extractLsb' 0 32, raw.extractLsb' 32 32]) ∧
      (∀ src len dst : Word, t.err = 0#4 → decode p = .run (.decbuf src len dst) →
        rest = [BitVec.ofNat 32 (len.toNat / 4)]) ∧
      (decode p = .run .stat → rest = [])

/-! ### Frames and whole-machine rules -/

/-- The frame of every request: what it leaves unchanged when it gives a next state. IBUF, the capacities and the host's
side (its moves to come, what it read) always; OBUF for DECREC and STAT and wherever an exception was raised or the CFD is
halted; for DECBUF every entry outside [DST, DST+N). ERR unless an exception was raised on a ready CFD (20_memory.md R40,
R41, R42; 40 R90; 41 R100; 42 R120). -/
def Obligations.RequestFrame : Prop :=
  ∀ (i : Instr) (s t : State), Memory.wf s.obuf → exec i s = .next t →
    (∀ a, Memory.read t.ibuf a = Memory.read s.ibuf a) ∧
    t.ibufBytes = s.ibufBytes ∧ t.obufEntries = s.obufEntries ∧
    t.pending = s.pending ∧ t.readouts = s.readouts ∧
    (s.err ≠ 0#4 → t.err = s.err) ∧
    (s.err ≠ 0#4 ∨ t.err ≠ 0#4 → t.obuf = s.obuf) ∧
    (match i with
      | .decrec _ _ => t.obuf = s.obuf ∧ (t.err = s.err ∨ t.err = 1#4)
      | .decbuf _ len dst =>
        (∀ j, (j < dst.toNat ∨ dst.toNat + len.toNat / 4 ≤ j) → Memory.read t.obuf j = Memory.read s.obuf j) ∧
        (t.err = s.err ∨ t.err = 2#4 ∨ t.err = 4#4)
      | .stat => t.obuf = s.obuf ∧ t.err = s.err)

/-- Tier 3. Every step keeps the invariant: ERR is a legal value, and each memory is in its canonical form with every cell
inside its buffer (10_state.md R20, R24; 20_memory.md R40, R41). The canonical form is the model's way to hold a memory. -/
def Obligations.InvariantKeptByStep : Prop :=
  ∀ s t : State, s.Inv → step s = .next t → t.Inv

/-- The state after reset meets the invariant. -/
def Obligations.ResetMeetsInvariant : Prop := State.reset.Inv

/-- The state after reset (10_state.md R30): ERR and STATUS are 0, every IBUF byte and every OBUF entry is unwritten,
whatever the capacities are. That no move is pending is the model's own field (log 1), and that the reset state is one
of these with its capacities free is log 3. -/
def Obligations.ResetValues : Prop :=
  (∀ ib ob : Capacity,
    (State.resetWith ib ob).err = 0#4 ∧ statusWord (State.resetWith ib ob) = 0#32 ∧
    (∀ a, Memory.read (State.resetWith ib ob).ibuf a = none) ∧
    (∀ j, Memory.read (State.resetWith ib ob).obuf j = none) ∧
    (State.resetWith ib ob).pending = []) ∧
  ∃ ib ob : Capacity, State.reset = State.resetWith ib ob

/-- RESET, asserted alone or to abandon a request (70_reset_and_hazards.md R150): ERR is 0 and every byte and entry is
unwritten; the abandoned request gets no response. That the capacities, the host's later moves and what it has received
stay is the model's own (log 6, log 7). -/
def Obligations.ResetMove : Prop :=
  ∀ (s : State) (m : HostMove) (rest : List HostMove), s.pending = m :: rest →
    (m = .reset ∨ ∃ p : Packet, m = .abandon p) →
    ∃ t : State, step s = .next t ∧ t.err = 0#4 ∧ (∀ a, Memory.read t.ibuf a = none) ∧
      (∀ j, Memory.read t.obuf j = none) ∧ t.responses = s.responses ∧ t.readouts = s.readouts ∧
      t.ibufBytes = s.ibufBytes ∧ t.obufEntries = s.obufEntries ∧ t.pending = rest

/-- The host's accesses (20_memory.md R47): HostWriteIBUF writes its byte and nothing else; HostReadOBUF returns the entry
and changes nothing in the CFD, or is the model fault UnwrittenOutput where the entry is unwritten. -/
def Obligations.HostAccesses : Prop :=
  (∀ (s : State) (a : Nat) (b : Byte) (rest : List HostMove), s.pending = .writeIbuf a b :: rest →
    a < s.ibufBytes.val → Memory.wf s.ibuf →
    ∃ ib : List Host.Cell, step s = .next { s with ibuf := ib, pending := rest } ∧
      ∀ x, Memory.read ib x = if x = a then some b else Memory.read s.ibuf x) ∧
  (∀ (s : State) (j : Nat) (v : Entry) (rest : List HostMove), s.pending = .readObuf j :: rest →
    j < s.obufEntries.val → Memory.read s.obuf j = some v →
    step s = .next { s with readouts := s.readouts ++ [(j, v)], pending := rest }) ∧
  (∀ (s : State) (j : Nat) (rest : List HostMove), s.pending = .readObuf j :: rest →
    j < s.obufEntries.val → Memory.read s.obuf j = none → step s = .fault .unwrittenOutput)

/-- A host access outside IBUF or OBUF is refused by name. THE MODEL'S CHOICE (log 5): the spec says it "has no move in the
model" (20_memory.md R47). -/
def Obligations.HostAccessOutOfRangeRefused : Prop :=
  (∀ (s : State) (a : Nat) (b : Byte) (rest : List HostMove), s.pending = .writeIbuf a b :: rest →
    s.ibufBytes.val ≤ a → step s = .refused .hostAccessOutOfRange) ∧
  (∀ (s : State) (j : Nat) (rest : List HostMove), s.pending = .readObuf j :: rest →
    s.obufEntries.val ≤ j → step s = .refused .hostAccessOutOfRange)

/-- The hand-off (20_memory.md R50): a DECBUF sees the bytes the host wrote before it, and the host's read after its response
sees the entry it wrote, for any record, anywhere in the buffers, from any ready state. The value read and the response
[0, 1] are those of 41_buffer_decode.md R100 and 40_record_decode.md R85 and R86; the queue of moves is the model's own
(log 1), and so are the lists of responses and reads (log 2). -/
def Obligations.HostWritesThenReadsBack : Prop :=
  ∀ (s : State) (rest : List HostMove) (src dst : Word) (b0 b1 b2 b3 : Byte),
    s.err = 0#4 → Memory.wf s.ibuf → Memory.wf s.obuf →
    src.toNat + 4 ≤ s.ibufBytes.val → dst.toNat + 1 ≤ s.obufEntries.val →
    s.pending = .writeIbuf src.toNat b0 :: .writeIbuf (src.toNat + 1) b1 :: .writeIbuf (src.toNat + 2) b2 ::
      .writeIbuf (src.toNat + 3) b3 :: .request [0x00000002#32, src, 4#32, dst] :: .readObuf dst.toNat :: rest →
    ∃ t : State, Host.Core.run Sys2Proof.core 6 s = .next t ∧ t.err = 0#4 ∧ t.pending = rest ∧
      t.responses = s.responses ++ [[0#32, 1#32]] ∧
      t.readouts = s.readouts ++ [(dst.toNat,
        f64bits (65536 * b1.toNat + 256 * b2.toNat + b3.toNat) ((b0.toNat : Int) - 150))]

/-- IBUF is the host's to write (20_memory.md R40, R47, R54): a step changes a byte of it only where the host wrote that
byte or asserted RESET, after which it is unwritten (70_reset_and_hazards.md R150, 10_state.md R30). That RESET is a
step of its own is log 6 and that an abandoned request leaves what RESET leaves is log 7 (both DEDUCED). -/
def Obligations.OnlyHostWritesInput : Prop :=
  ∀ (s t : State) (a : Nat), Memory.wf s.ibuf → step s = .next t → Memory.read t.ibuf a ≠ Memory.read s.ibuf a →
    ∃ (m : HostMove) (rest : List HostMove), s.pending = m :: rest ∧
      ((∃ b : Byte, m = .writeIbuf a b ∧ Memory.read t.ibuf a = some b) ∨
       (m = .reset ∧ Memory.read t.ibuf a = none) ∨ (∃ p, m = .abandon p ∧ Memory.read t.ibuf a = none))

/-- OBUF is DECBUF's to write (20_memory.md R41, R47): a step changes an entry of it only where a DECBUF on a ready CFD
wrote inside its own destination range, without an exception (41_buffer_decode.md R100, 60_exceptions.md R131, R133), or
the host asserted RESET, after which it is unwritten (70_reset_and_hazards.md R150, 10_state.md R30). That RESET is a
step of its own is log 6 and that an abandoned request leaves what RESET leaves is log 7 (both DEDUCED). -/
def Obligations.OnlyDecbufWritesOutput : Prop :=
  ∀ (s t : State) (j : Nat), Memory.wf s.obuf → step s = .next t → Memory.read t.obuf j ≠ Memory.read s.obuf j →
    ∃ (m : HostMove) (rest : List HostMove), s.pending = m :: rest ∧
      ((∃ (p : Packet) (src len dst : Word), m = .request p ∧ decode p = .run (.decbuf src len dst) ∧
          s.err = 0#4 ∧ t.err = 0#4 ∧ dst.toNat ≤ j ∧ j < dst.toNat + len.toNat / 4) ∨
       (m = .reset ∧ Memory.read t.obuf j = none) ∨ (∃ p, m = .abandon p ∧ Memory.read t.obuf j = none))

/-- The parameters do not change (10_state.md R28), a step takes at most the host's next move, and what was sent or read
is never taken back (log 1, log 2). -/
def Obligations.ParametersAndHistoryKept : Prop :=
  ∀ s t : State, step s = .next t →
    t.ibufBytes = s.ibufBytes ∧ t.obufEntries = s.obufEntries ∧ t.pending = s.pending.tail ∧
    (∃ ws : List Packet, t.responses = s.responses ++ ws ∧ ws.length ≤ 1) ∧
    (∃ rs : List (Nat × Entry), t.readouts = s.readouts ++ rs ∧ rs.length ≤ 1)

/-- A step serves the decoded request, in the model's own queue of moves (log 1): when the host's next move sends a
packet that decodes to i, the step is exec of i with that move taken off the queue (30_encoding.md R61, R73). -/
def Obligations.StepRunsDecodedRequest : Prop :=
  ∀ (s : State) (p : Packet) (i : Instr) (rest : List HostMove),
    s.pending = .request p :: rest → decode p = .run i → step s = exec i { s with pending := rest }

/-- With no move pending the CFD waits and keeps all its state (60_exceptions.md R145); that a halted one does so too is the
model's reading (log 15). -/
def Obligations.WaitingKeepsState : Prop :=
  ∀ s : State, s.pending = [] → step s = .next s

/-- No request is refused, on any state (60_exceptions.md section 6: "every packet has a meaning"). -/
def Obligations.NoRequestRefused : Prop :=
  ∀ (s : State) (p : Packet) (r : Refusal), serve p s ≠ .refused r

/-- Where the model faults come from (60_exceptions.md R138): only a DECBUF on a ready CFD over an unwritten byte of its own
buffer, and only a host read of an unwritten entry. -/
def Obligations.FaultsOnlyFromUnwritten : Prop :=
  ∀ (s : State) (f : Fault), step s = .fault f →
    (f = .unwrittenInput ∧ ∃ (p : Packet) (src len dst : Word) (rest : List HostMove) (k : Nat),
      s.pending = .request p :: rest ∧ decode p = .run (.decbuf src len dst) ∧ s.err = 0#4 ∧
      k < len.toNat ∧ Memory.read s.ibuf (src.toNat + k) = none) ∨
    (f = .unwrittenOutput ∧ ∃ (j : Nat) (rest : List HostMove),
      s.pending = .readObuf j :: rest ∧ Memory.read s.obuf j = none)
end

