-- ==== Sys2Proof/Laws/State.lean ====
section
/-! SUPPORT. One lemma per field per update of State, so that no proof unfolds a record update. -/

namespace Sys2Proof.Machine

section Respond
variable (ws : Packet) (s : State)

@[simp] theorem respond_err : (respond ws s).err = s.err := rfl
@[simp] theorem respond_ibuf : (respond ws s).ibuf = s.ibuf := rfl
@[simp] theorem respond_obuf : (respond ws s).obuf = s.obuf := rfl
@[simp] theorem respond_ibufBytes : (respond ws s).ibufBytes = s.ibufBytes := rfl
@[simp] theorem respond_obufEntries : (respond ws s).obufEntries = s.obufEntries := rfl
@[simp] theorem respond_pending : (respond ws s).pending = s.pending := rfl
@[simp] theorem respond_responses : (respond ws s).responses = s.responses ++ [ws] := rfl
@[simp] theorem respond_readouts : (respond ws s).readouts = s.readouts := rfl

@[simp] theorem answer_err : (answer ws s).err = s.err := rfl
@[simp] theorem answer_ibuf : (answer ws s).ibuf = s.ibuf := rfl
@[simp] theorem answer_obuf : (answer ws s).obuf = s.obuf := rfl
@[simp] theorem answer_ibufBytes : (answer ws s).ibufBytes = s.ibufBytes := rfl
@[simp] theorem answer_obufEntries : (answer ws s).obufEntries = s.obufEntries := rfl
@[simp] theorem answer_pending : (answer ws s).pending = s.pending := rfl
@[simp] theorem answer_responses : (answer ws s).responses = s.responses ++ [statusWord s :: ws] := rfl
@[simp] theorem answer_readouts : (answer ws s).readouts = s.readouts := rfl

end Respond

section SetObuf
variable (m : List (Nat × Entry)) (s : State)

@[simp] theorem setObuf_err : (setObuf m s).err = s.err := rfl
@[simp] theorem setObuf_ibuf : (setObuf m s).ibuf = s.ibuf := rfl
@[simp] theorem setObuf_obuf : (setObuf m s).obuf = m := rfl
@[simp] theorem setObuf_ibufBytes : (setObuf m s).ibufBytes = s.ibufBytes := rfl
@[simp] theorem setObuf_obufEntries : (setObuf m s).obufEntries = s.obufEntries := rfl
@[simp] theorem setObuf_pending : (setObuf m s).pending = s.pending := rfl
@[simp] theorem setObuf_responses : (setObuf m s).responses = s.responses := rfl
@[simp] theorem setObuf_readouts : (setObuf m s).readouts = s.readouts := rfl
@[simp] theorem setObuf_status : statusWord (setObuf m s) = statusWord s := rfl

end SetObuf

section Raise
variable (e : Cause) (s : State)

@[simp] theorem raise_err : (raise e s).err = causeCode e := rfl
@[simp] theorem raise_ibuf : (raise e s).ibuf = s.ibuf := rfl
@[simp] theorem raise_obuf : (raise e s).obuf = s.obuf := rfl
@[simp] theorem raise_ibufBytes : (raise e s).ibufBytes = s.ibufBytes := rfl
@[simp] theorem raise_obufEntries : (raise e s).obufEntries = s.obufEntries := rfl
@[simp] theorem raise_pending : (raise e s).pending = s.pending := rfl
@[simp] theorem raise_responses : (raise e s).responses = s.responses ++ [[(causeCode e).setWidth 32]] := rfl
@[simp] theorem raise_readouts : (raise e s).readouts = s.readouts := rfl

end Raise

section Reset
variable (s : State)

@[simp] theorem resetCfd_err : (resetCfd s).err = 0#4 := rfl
@[simp] theorem resetCfd_ibuf : (resetCfd s).ibuf = [] := rfl
@[simp] theorem resetCfd_obuf : (resetCfd s).obuf = [] := rfl
@[simp] theorem resetCfd_ibufBytes : (resetCfd s).ibufBytes = s.ibufBytes := rfl
@[simp] theorem resetCfd_obufEntries : (resetCfd s).obufEntries = s.obufEntries := rfl
@[simp] theorem resetCfd_pending : (resetCfd s).pending = s.pending := rfl
@[simp] theorem resetCfd_responses : (resetCfd s).responses = s.responses := rfl
@[simp] theorem resetCfd_readouts : (resetCfd s).readouts = s.readouts := rfl

end Reset

@[simp] theorem sendNext_pending (p : Packet) (s : State) :
    (sendNext p s).pending = .request p :: s.pending := rfl

end Sys2Proof.Machine
end

