-- ==== Sys2Proof/Laws/Memory.lean ====
section
/-! SUPPORT. The laws of the two memories: a read after a write, the canonical form kept by every operation, and equal
reads giving equal memories. -/

namespace Sys2Proof.Machine

variable {α : Type}

@[simp] theorem read_nil (a : Nat) : Memory.read ([] : List (Nat × α)) a = none := rfl

@[simp] theorem read_cons (b : Nat) (w : α) (m : List (Nat × α)) (a : Nat) :
    Memory.read ((b, w) :: m) a = if a = b then some w else Memory.read m a := rfl

@[simp] theorem wf_nil : Memory.wf ([] : List (Nat × α)) := List.Pairwise.nil

@[simp] theorem within_nil (size : Nat) : Memory.within ([] : List (Nat × α)) size := by simp [Memory.within]

theorem wf_cons {b : Nat} {w : α} {m : List (Nat × α)} :
    Memory.wf ((b, w) :: m) ↔ (∀ c ∈ m, b < c.1) ∧ Memory.wf m := by
  simp [Memory.wf]

/-- Where every cell lies above an address, that address is unwritten. -/
theorem read_of_lt {m : List (Nat × α)} {a : Nat} (h : ∀ c ∈ m, a < c.1) : Memory.read m a = none := by
  induction m with
  | nil => rfl
  | cons c m ih =>
    obtain ⟨b, w⟩ := c
    have hb : a < b := h (b, w) (by simp)
    simp only [read_cons, if_neg (Nat.ne_of_lt hb)]
    exact ih fun c hc => h c (by simp [hc])

/-- A read after a write, at the address written and at every other, in any memory of canonical form. -/
theorem read_write {m : List (Nat × α)} (hm : Memory.wf m) (a : Nat) (v : α) (x : Nat) :
    Memory.read (Memory.write m a v) x = if x = a then some v else Memory.read m x := by
  induction m with
  | nil => rfl
  | cons c m ih =>
    obtain ⟨b, w⟩ := c
    obtain ⟨-, hm'⟩ := wf_cons.1 hm
    simp only [Memory.write]
    split
    · rfl
    · split
      · subst_vars; simp only [read_cons]; split <;> rfl
      · rename_i hlt hne
        simp only [read_cons, ih hm']
        split_ifs <;> simp_all

/-- The cells of a written memory are the new one and old ones. -/
theorem mem_write {m : List (Nat × α)} {a : Nat} {v : α} {c : Nat × α} (h : c ∈ Memory.write m a v) :
    c = (a, v) ∨ c ∈ m := by
  induction m with
  | nil => exact .inl (by simpa [Memory.write] using h)
  | cons d m ih =>
    obtain ⟨b, w⟩ := d
    simp only [Memory.write] at h
    split at h
    · simpa using h
    · split at h
      · rcases List.mem_cons.1 h with h | h
        · exact .inl h
        · exact .inr (by simp [h])
      · rcases List.mem_cons.1 h with h | h
        · exact .inr (by simp [h])
        · rcases ih h with h | h
          · exact .inl h
          · exact .inr (by simp [h])

/-- A write keeps the canonical form. -/
theorem wf_write {m : List (Nat × α)} (hm : Memory.wf m) (a : Nat) (v : α) : Memory.wf (Memory.write m a v) := by
  induction m with
  | nil => simp [Memory.write, Memory.wf]
  | cons c m ih =>
    obtain ⟨b, w⟩ := c
    obtain ⟨hlo, hm'⟩ := wf_cons.1 hm
    simp only [Memory.write]
    split
    · rename_i hab
      refine wf_cons.2 ⟨fun c hc => ?_, hm⟩
      rcases List.mem_cons.1 hc with rfl | hc
      · exact hab
      · exact Nat.lt_trans hab (hlo c hc)
    · split
      · subst_vars; exact wf_cons.2 ⟨hlo, hm'⟩
      · refine wf_cons.2 ⟨fun c hc => ?_, ih hm'⟩
        rcases mem_write hc with rfl | hc
        · simp only; omega
        · exact hlo c hc

/-- A write inside the capacity keeps every cell inside it. -/
theorem within_write {m : List (Nat × α)} {size a : Nat} (hm : Memory.within m size) (ha : a < size) (v : α) :
    Memory.within (Memory.write m a v) size := by
  intro c hc
  rcases mem_write hc with rfl | hc
  · exact ha
  · exact hm c hc

/-- A written address holds a listed cell. -/
theorem mem_of_read {m : List (Nat × α)} {a : Nat} {v : α} (h : Memory.read m a = some v) : (a, v) ∈ m := by
  induction m with
  | nil => simp at h
  | cons c m ih =>
    obtain ⟨b, w⟩ := c
    simp only [read_cons] at h
    split at h
    · simp_all
    · exact List.mem_cons_of_mem _ (ih h)

/-- The memories of the state after reset have the canonical form. -/
theorem wf_reset : Memory.wf State.reset.ibuf ∧ Memory.wf State.reset.obuf := ⟨wf_nil, wf_nil⟩

/-- Two memories of canonical form that read alike at every address are equal. -/
theorem Memory.ext {m n : List (Nat × α)} (hm : Memory.wf m) (hn : Memory.wf n)
    (h : ∀ a, Memory.read m a = Memory.read n a) : m = n := by
  induction m generalizing n with
  | nil =>
    cases n with
    | nil => rfl
    | cons d n => obtain ⟨b, w⟩ := d; have := h b; simp at this
  | cons c m ih =>
    obtain ⟨a, v⟩ := c
    obtain ⟨hlo, hm'⟩ := wf_cons.1 hm
    cases n with
    | nil => have := h a; simp at this
    | cons d n =>
      obtain ⟨b, w⟩ := d
      obtain ⟨hlo', hn'⟩ := wf_cons.1 hn
      have hab : a = b := by
        rcases Nat.lt_trichotomy a b with hl | he | hl
        · have := h a
          rw [read_of_lt (m := (b, w) :: n)] at this
          · simp at this
          · intro c hc
            rcases List.mem_cons.1 hc with rfl | hc
            · exact hl
            · exact Nat.lt_trans hl (hlo' c hc)
        · exact he
        · have := h b
          rw [read_of_lt (m := (a, v) :: m)] at this
          · simp at this
          · intro c hc
            rcases List.mem_cons.1 hc with rfl | hc
            · exact hl
            · exact Nat.lt_trans hl (hlo c hc)
      subst hab
      have hv : v = w := by have := h a; simpa using this
      subst hv
      have : m = n := by
        refine ih hm' hn' fun x => ?_
        have hx := h x
        simp only [read_cons] at hx
        split at hx
        · subst_vars; rw [read_of_lt hlo, read_of_lt hlo']
        · exact hx
      rw [this]

/-- `MemRead` gives n bytes exactly when all of them are written, and then byte k is the one at `addr + k`. -/
theorem memRead_eq_some {ib : List Host.Cell} {addr n : Nat} {bs : List Byte} :
    memRead ib addr n = some bs ↔
      bs.length = n ∧ ∀ k, (hk : k < bs.length) → Memory.read ib (addr + k) = some bs[k] := by
  induction n generalizing addr bs with
  | zero =>
    simp only [memRead, Option.some.injEq]
    constructor
    · rintro rfl; simp
    · rintro ⟨h, -⟩; exact (List.eq_nil_of_length_eq_zero h).symm
  | succ n ih =>
    simp only [memRead]
    constructor
    · intro h
      split at h
      · rename_i b bs' hb hbs
        obtain ⟨hlen, hrd⟩ := ih.1 hbs
        simp only [Option.some.injEq] at h
        subst h
        refine ⟨by simp [hlen], fun k hk => ?_⟩
        cases k with
        | zero => simpa using hb
        | succ k =>
          have := hrd k (by simpa using hk)
          simpa [Nat.add_assoc, Nat.add_comm 1 k] using this
      · simp at h
    · rintro ⟨hlen, hrd⟩
      cases bs with
      | nil => simp at hlen
      | cons b bs =>
        have hb : Memory.read ib addr = some b := hrd 0 (by simp)
        have hbs : memRead ib (addr + 1) n = some bs := by
          refine ih.2 ⟨by simpa using hlen, fun k hk => ?_⟩
          have := hrd (k + 1) (by simpa using hk)
          simpa [Nat.add_assoc, Nat.add_comm 1 k] using this
        rw [hb, hbs]

/-- `readRecord` gives a record exactly when its four bytes are written: b0 at the lowest address. -/
theorem readRecord_eq_some {ib : List Host.Cell} {addr : Nat} {r : Word} :
    readRecord ib addr = some r ↔
      ∃ b0 b1 b2 b3, r = recordWord b0 b1 b2 b3 ∧ Memory.read ib addr = some b0 ∧
        Memory.read ib (addr + 1) = some b1 ∧ Memory.read ib (addr + 2) = some b2 ∧
        Memory.read ib (addr + 3) = some b3 := by
  constructor
  · intro h
    simp only [readRecord] at h
    split at h
    · rename_i b0 b1 b2 b3 hbs
      obtain ⟨-, hrd⟩ := memRead_eq_some.1 hbs
      refine ⟨b0, b1, b2, b3, by simpa using h.symm, ?_, ?_, ?_, ?_⟩
      · simpa using hrd 0 (by simp)
      · simpa using hrd 1 (by simp)
      · simpa using hrd 2 (by simp)
      · simpa using hrd 3 (by simp)
    · simp at h
  · rintro ⟨b0, b1, b2, b3, rfl, h0, h1, h2, h3⟩
    simp [readRecord, Config.recordBytes, memRead, h0, h1, h2, h3]

/-- `readRecord` fails exactly when one of its four bytes is unwritten. -/
theorem readRecord_eq_none {ib : List Host.Cell} {addr : Nat} :
    readRecord ib addr = none ↔ ∃ k, k < 4 ∧ Memory.read ib (addr + k) = none := by
  constructor
  · intro h
    by_contra hno
    push Not at hno
    have some_of : ∀ k, k < 4 → ∃ b, Memory.read ib (addr + k) = some b := fun k hk =>
      Option.ne_none_iff_exists'.1 (hno k hk)
    obtain ⟨b0, h0⟩ := some_of 0 (by omega)
    obtain ⟨b1, h1⟩ := some_of 1 (by omega)
    obtain ⟨b2, h2⟩ := some_of 2 (by omega)
    obtain ⟨b3, h3⟩ := some_of 3 (by omega)
    have := readRecord_eq_some.2 ⟨b0, b1, b2, b3, rfl, h0, h1, h2, h3⟩
    simp [h] at this
  · rintro ⟨k, hk, hnone⟩
    by_contra hne
    obtain ⟨r, hr⟩ := Option.ne_none_iff_exists'.1 hne
    obtain ⟨b0, b1, b2, b3, -, h0, h1, h2, h3⟩ := readRecord_eq_some.1 hr
    interval_cases k <;> simp_all

end Sys2Proof.Machine
end

