-- ==== Sys2Proof/Laws/Ops.lean ====
section
/-! SUPPORT. What each shared operation and each meaning can do, said once: later proofs cite these instead of unfolding. -/

namespace Sys2Proof.Machine

/-- What DECBUF's loop writes, entry by entry: for `dst+i` up to `dst+i+n-1` the VAL of the record, elsewhere nothing. -/
theorem decodeRun_eq_some {ib : List Host.Cell} {src dst i n : Nat} {ob ob' : List (Nat × Entry)}
    (hw : Memory.wf ob) (h : decodeRun ib src dst i ob n = some ob') :
    Memory.wf ob' ∧
      (∀ k, i ≤ k → k < i + n → ∃ r, readRecord ib (src + 4 * k) = some r ∧
        Memory.read ob' (dst + k) = some (decodeRecord r).val) ∧
      (∀ j, (j < dst + i ∨ dst + i + n ≤ j) → Memory.read ob' j = Memory.read ob j) := by
  induction n generalizing i ob with
  | zero =>
    simp only [decodeRun, Option.some.injEq] at h
    subst h
    exact ⟨hw, fun k hik hkn => by omega, fun j _ => rfl⟩
  | succ n ih =>
    simp only [decodeRun, recordAddr, Config.recordBytes] at h
    split at h
    · simp at h
    · rename_i r hr
      obtain ⟨hw', hin, hout⟩ := ih (wf_write hw _ _) h
      refine ⟨hw', fun k hik hkn => ?_, fun j hj => ?_⟩
      · by_cases hk : k = i
        · subst hk
          refine ⟨r, hr, ?_⟩
          rw [hout (dst + k) (by omega), read_write hw, if_pos rfl]
        · exact hin k (by omega) (by omega)
      · rw [hout j (by omega), read_write hw, if_neg (by omega)]

/-- Entries DECBUF's loop leaves inside a capacity. -/
theorem decodeRun_within {ib : List Host.Cell} {src dst i n size : Nat} {ob ob' : List (Nat × Entry)}
    (hb : Memory.within ob size) (hsz : dst + i + n ≤ size) (h : decodeRun ib src dst i ob n = some ob') :
    Memory.within ob' size := by
  induction n generalizing i ob with
  | zero => simp only [decodeRun, Option.some.injEq] at h; exact h ▸ hb
  | succ n ih =>
    simp only [decodeRun] at h
    split at h
    · simp at h
    · exact ih (within_write hb (by omega) _) (by omega) h

/-- DECBUF's loop stops exactly when some record it reads has an unwritten byte. -/
theorem decodeRun_eq_none {ib : List Host.Cell} {src dst i n : Nat} {ob : List (Nat × Entry)} :
    decodeRun ib src dst i ob n = none ↔ ∃ k, i ≤ k ∧ k < i + n ∧ readRecord ib (src + 4 * k) = none := by
  induction n generalizing i ob with
  | zero => simp only [decodeRun]; constructor <;> simp; omega
  | succ n ih =>
    simp only [decodeRun, recordAddr, Config.recordBytes]
    split
    · rename_i hr
      simp only [true_iff]
      exact ⟨i, le_refl i, by omega, hr⟩
    · rename_i r hr
      rw [ih]
      constructor
      · rintro ⟨k, h1, h2, h3⟩; exact ⟨k, by omega, by omega, h3⟩
      · rintro ⟨k, h1, h2, h3⟩
        refine ⟨k, ?_, by omega, h3⟩
        rcases Nat.eq_or_lt_of_le h1 with rfl | h
        · simp [hr] at h3
        · exact h

/-- The loop in two parts: the first n records, then m more from where it stopped. -/
theorem decodeRun_add {ib : List Host.Cell} {src dst i n m : Nat} {ob : List (Nat × Entry)} :
    decodeRun ib src dst i ob (n + m) =
      (decodeRun ib src dst i ob n).bind fun ob' => decodeRun ib src dst (i + n) ob' m := by
  induction n generalizing i ob with
  | zero => simp [decodeRun]
  | succ n ih =>
    rw [Nat.add_right_comm, decodeRun, decodeRun]
    split
    · rfl
    · rw [ih]; simp only [Nat.add_comm 1 n, Nat.add_assoc]

/-- Starting the loop at record i is starting it at record 0 of the operands moved on by i records. -/
theorem decodeRun_shift {ib : List Host.Cell} {src dst i d n : Nat} {ob : List (Nat × Entry)} :
    decodeRun ib src dst (i + d) ob n = decodeRun ib (src + 4 * d) (dst + d) i ob n := by
  induction n generalizing i ob with
  | zero => rfl
  | succ n ih =>
    simp only [decodeRun, recordAddr, Config.recordBytes]
    rw [show src + 4 * (i + d) = src + 4 * d + 4 * i by omega, show dst + (i + d) = dst + d + i by omega,
      show i + d + 1 = i + 1 + d by omega]
    simp only [ih]

theorem causeCode_ne (e : Cause) : causeCode e ≠ 0#4 := by cases e <;> decide

theorem causeCode_le (e : Cause) : (causeCode e).toNat ≤ 4 := by cases e <;> decide

/-- Taking an exception halts the CFD. -/
theorem raise_err_ne (e : Cause) (s : State) : (raise e s).err ≠ 0#4 := causeCode_ne e

theorem status_ready {s : State} (h : s.err = 0#4) : statusWord s = 0#32 := by simp [statusWord, h]

section Ready
variable {s : State} {k : Result}

theorem whenReady_of_ready (h : s.err = 0#4) : whenReady s k = k := by simp [whenReady, isReady, h]

theorem whenReady_of_halted (h : s.err ≠ 0#4) : whenReady s k = .next (answer [] s) := by
  simp [whenReady, isReady, h]

end Ready

/-- A halted CFD runs no request: it answers STATUS (60_exceptions.md R133). -/
theorem exec_of_halted {s : State} (h : s.err ≠ 0#4) (i : Instr) : exec i s = .next (answer [] s) := by
  cases i <;> simp [exec, execDecrec, execDecbuf, execStat, whenReady_of_halted h]

theorem serve_of_halted {s : State} (h : s.err ≠ 0#4) (p : Packet) : serve p s = .next (answer [] s) := by
  unfold serve serveIllegal
  split
  · exact exec_of_halted h _
  · exact whenReady_of_halted h

/-- Everything DECREC can do on a ready CFD. -/
theorem execDecrec_of_ready {s : State} (h : s.err = 0#4) (rlen : BitVec 3) (record : Word) :
    execDecrec rlen record s =
      .next (if rlen = 4#3 then answer (decodedWords (decodeRecord record)) s
        else raise .invalidRecordLength s) := by
  have : rlen.toNat = 4 ↔ rlen = 4#3 := by simp [← BitVec.toNat_inj]
  simp only [execDecrec, whenReady_of_ready h, Config.recordBytes, ne_eq, this]
  split_ifs <;> rfl

/-- The checks DECBUF makes before it reads IBUF, as propositions (41 R100). -/
abbrev DecbufChecks (src len dst : Word) (s : State) : Prop :=
  len.toNat % 4 = 0 ∧ src.toNat + len.toNat ≤ s.ibufBytes.val ∧ dst.toNat + len.toNat / 4 ≤ s.obufEntries.val

/-- DECBUF when all its checks pass: the loop decides. -/
theorem execDecbuf_of_checks {s : State} (h : s.err = 0#4) {src len dst : Word} (hc : DecbufChecks src len dst s) :
    execDecbuf src len dst s =
      match decodeRun s.ibuf src.toNat dst.toNat 0 s.obuf (len.toNat / 4) with
      | none => .fault .unwrittenInput
      | some ob => .next (answer [BitVec.ofNat 32 (len.toNat / 4)] (setObuf ob s)) := by
  obtain ⟨h1, h2, h3⟩ := hc
  cases hd : decodeRun s.ibuf src.toNat dst.toNat 0 s.obuf (len.toNat / 4) <;>
    simp [execDecbuf, whenReady_of_ready h, lengthWhole, sourceInRange, destInRange, recordCount,
      Config.recordBytes, h1, h2, h3, hd]

theorem execDecbuf_badLength {s : State} (h : s.err = 0#4) {src len dst : Word} (hl : len.toNat % 4 ≠ 0) :
    execDecbuf src len dst s = .next (raise .invalidBufferLength s) := by
  simp [execDecbuf, whenReady_of_ready h, lengthWhole, Config.recordBytes, hl]

theorem execDecbuf_badRange {s : State} (h : s.err = 0#4) {src len dst : Word} (hl : len.toNat % 4 = 0)
    (hr : s.ibufBytes.val < src.toNat + len.toNat ∨ s.obufEntries.val < dst.toNat + len.toNat / 4) :
    execDecbuf src len dst s = .next (raise .bufferRange s) := by
  simp only [execDecbuf, whenReady_of_ready h, lengthWhole, sourceInRange, destInRange, recordCount,
    Config.recordBytes, hl]
  by_cases h1 : src.toNat + len.toNat ≤ s.ibufBytes.val
  · have h2 : ¬ dst.toNat + len.toNat / 4 ≤ s.obufEntries.val := by omega
    simp [h1, h2]
  · simp [h1]

/-- Everything DECBUF can do: wait for nothing, one of these five outcomes (60_exceptions.md R135). -/
theorem execDecbuf_cases (src len dst : Word) (s : State) :
    (s.err ≠ 0#4 ∧ execDecbuf src len dst s = .next (answer [] s)) ∨
    (s.err = 0#4 ∧ len.toNat % 4 ≠ 0 ∧ execDecbuf src len dst s = .next (raise .invalidBufferLength s)) ∨
    (s.err = 0#4 ∧ len.toNat % 4 = 0 ∧
      (s.ibufBytes.val < src.toNat + len.toNat ∨ s.obufEntries.val < dst.toNat + len.toNat / 4) ∧
      execDecbuf src len dst s = .next (raise .bufferRange s)) ∨
    (s.err = 0#4 ∧ DecbufChecks src len dst s ∧
      decodeRun s.ibuf src.toNat dst.toNat 0 s.obuf (len.toNat / 4) = none ∧
      execDecbuf src len dst s = .fault .unwrittenInput) ∨
    (s.err = 0#4 ∧ DecbufChecks src len dst s ∧
      ∃ ob, decodeRun s.ibuf src.toNat dst.toNat 0 s.obuf (len.toNat / 4) = some ob ∧
        execDecbuf src len dst s = .next (answer [BitVec.ofNat 32 (len.toNat / 4)] (setObuf ob s))) := by
  by_cases h : s.err = 0#4
  · by_cases hl : len.toNat % 4 = 0
    · by_cases hr : s.ibufBytes.val < src.toNat + len.toNat ∨ s.obufEntries.val < dst.toNat + len.toNat / 4
      · exact .inr (.inr (.inl ⟨h, hl, hr, execDecbuf_badRange h hl hr⟩))
      · have hc : DecbufChecks src len dst s := ⟨hl, by omega, by omega⟩
        have he := execDecbuf_of_checks h hc
        cases hd : decodeRun s.ibuf src.toNat dst.toNat 0 s.obuf (len.toNat / 4) with
        | none => exact .inr (.inr (.inr (.inl ⟨h, hc, rfl, by simp [he, hd]⟩)))
        | some ob => exact .inr (.inr (.inr (.inr ⟨h, hc, ob, rfl, by simp [he, hd]⟩)))
    · exact .inr (.inl ⟨h, hl, execDecbuf_badLength h hl⟩)
  · exact .inl ⟨h, exec_of_halted h (.decbuf src len dst)⟩

/-- What a completed DECBUF leaves: the loop's OBUF and the response [0, N], nothing else. -/
theorem execDecbuf_done {s t : State} {a b c : Word} (h : s.err = 0#4) (he : exec (.decbuf a b c) s = .next t)
    (ht : t.err = 0#4) :
    DecbufChecks a b c s ∧ ∃ ob, decodeRun s.ibuf a.toNat c.toNat 0 s.obuf (b.toNat / 4) = some ob ∧
      t = { s with obuf := ob, responses := s.responses ++ [[0#32, BitVec.ofNat 32 (b.toNat / 4)]] } := by
  rcases execDecbuf_cases a b c s with
    ⟨h', _⟩ | ⟨_, _, he'⟩ | ⟨_, _, _, he'⟩ | ⟨_, _, _, he'⟩ | ⟨_, hc, ob, hd, he'⟩
  · exact absurd h h'
  · rw [exec, he'] at he; cases he; exact absurd ht (raise_err_ne _ _)
  · rw [exec, he'] at he; cases he; exact absurd ht (raise_err_ne _ _)
  · rw [exec, he'] at he; cases he
  · rw [exec, he'] at he; cases he
    exact ⟨hc, ob, hd, by rw [answer, setObuf_status, status_ready h]; rfl⟩

/-- Everything a request can do on a ready CFD: run, or be illegal. -/
theorem serve_cases {p : Packet} {s : State} (h : s.err = 0#4) :
    (∃ i, decode p = .run i ∧ serve p s = exec i s) ∨
    (∃ w, decode p = .illegal w ∧ serve p s = .next (raise .illegalRequest s)) := by
  cases hd : decode p with
  | run i => exact .inl ⟨i, rfl, by simp [serve, hd]⟩
  | illegal w => exact .inr ⟨w, rfl, by simp [serve, hd, serveIllegal, whenReady_of_ready h]⟩

/-- A request that runs on a ready CFD raises an exception, or leaves it ready. -/
theorem exec_next_cases {i : Instr} {s t : State} (h : s.err = 0#4) (he : exec i s = .next t) :
    (∃ e, t = raise e s) ∨ t.err = 0#4 := by
  cases i with
  | decrec l r =>
    rw [exec, execDecrec_of_ready h] at he; cases he
    split_ifs
    · exact .inr h
    · exact .inl ⟨_, rfl⟩
  | decbuf a b c =>
    rcases execDecbuf_cases a b c s with
      ⟨h', _⟩ | ⟨_, _, he'⟩ | ⟨_, _, _, he'⟩ | ⟨_, _, _, he'⟩ | ⟨_, _, ob, _, he'⟩
    · exact absurd h h'
    all_goals rw [exec, he'] at he; cases he
    · exact .inl ⟨_, rfl⟩
    · exact .inl ⟨_, rfl⟩
    · exact .inr h
  | stat => cases he; exact .inr h

/-- What no request changes: IBUF, the capacities and the host's side; it sends exactly one response. -/
theorem exec_frame {i : Instr} {s t : State} (he : exec i s = .next t) :
    t.ibuf = s.ibuf ∧ t.ibufBytes = s.ibufBytes ∧ t.obufEntries = s.obufEntries ∧ t.pending = s.pending ∧
      t.readouts = s.readouts ∧ ∃ w, t.responses = s.responses ++ [w] := by
  by_cases h : s.err = 0#4
  · cases i with
    | decrec l r =>
      rw [exec, execDecrec_of_ready h] at he; cases he
      split_ifs <;> exact ⟨rfl, rfl, rfl, rfl, rfl, _, rfl⟩
    | decbuf a b c =>
      rcases execDecbuf_cases a b c s with
        ⟨h', _⟩ | ⟨_, _, he'⟩ | ⟨_, _, _, he'⟩ | ⟨_, _, _, he'⟩ | ⟨_, _, ob, _, he'⟩
      · exact absurd h h'
      all_goals rw [exec, he'] at he; cases he
      all_goals exact ⟨rfl, rfl, rfl, rfl, rfl, _, rfl⟩
    | stat => cases he; exact ⟨rfl, rfl, rfl, rfl, rfl, _, rfl⟩
  · rw [exec_of_halted h] at he; cases he; exact ⟨rfl, rfl, rfl, rfl, rfl, _, rfl⟩

theorem serve_frame {p : Packet} {s t : State} (he : serve p s = .next t) :
    t.ibuf = s.ibuf ∧ t.ibufBytes = s.ibufBytes ∧ t.obufEntries = s.obufEntries ∧ t.pending = s.pending ∧
      t.readouts = s.readouts ∧ ∃ w, t.responses = s.responses ++ [w] := by
  by_cases h : s.err = 0#4
  · rcases serve_cases (p := p) h with ⟨i, _, hs⟩ | ⟨w, _, hs⟩
    · exact exec_frame (hs ▸ he)
    · rw [hs] at he; cases he; exact ⟨rfl, rfl, rfl, rfl, rfl, _, rfl⟩
  · rw [serve_of_halted h] at he; cases he; exact ⟨rfl, rfl, rfl, rfl, rfl, _, rfl⟩

/-- The bytes of `[src, src+len)` all written is what makes DECBUF's loop run to its end. -/
theorem decodeRun_none_iff_unwritten {s : State} {src dst len : Nat} {ob : List (Nat × Entry)} (hl : len % 4 = 0) :
    decodeRun s.ibuf src dst 0 ob (len / 4) = none ↔ ∃ k, k < len ∧ Memory.read s.ibuf (src + k) = none := by
  simp only [decodeRun_eq_none, readRecord_eq_none]
  constructor
  · rintro ⟨k, -, hk, j, hj, hn⟩
    exact ⟨4 * k + j, by omega, by rw [← hn]; congr 1; omega⟩
  · rintro ⟨k, hk, hn⟩
    exact ⟨k / 4, by omega, by omega, k % 4, by omega, by rw [← hn]; congr 1; omega⟩

/-- Everything one step can do: nothing pending, or one move of the host. -/
theorem step_cases (s : State) :
    (s.pending = [] ∧ step s = .next s) ∨
    (∃ m rest, s.pending = m :: rest ∧ step s = hostMove m { s with pending := rest }) := by
  cases h : s.pending with
  | nil => exact .inl ⟨rfl, by simp [step, nextMove, h]⟩
  | cons m rest => exact .inr ⟨m, rest, rfl, by simp [step, nextMove, h]⟩

end Sys2Proof.Machine
end

