-- ==== Sys2Proof/Laws/Datapath.lean ====
section
/-! SUPPORT. The laws of the datapath: the fields of a packed pattern, the exactness of f64bits, the sub-units on the bytes
of a record. -/

namespace Sys2Proof.Machine

section Pack
variable (sign : BitVec 1) (expo : BitVec 11) (frac : BitVec 52)

theorem f64pack_toNat :
    (f64pack sign expo frac).toNat = sign.toNat * 2 ^ 63 + expo.toNat * 2 ^ 52 + frac.toNat := by
  have h1 := expo.isLt
  have h2 := frac.isLt
  rw [f64pack, BitVec.toNat_append, BitVec.toNat_append, ← Nat.shiftLeft_add_eq_or_of_lt h2,
    ← Nat.shiftLeft_add_eq_or_of_lt h1, Nat.shiftLeft_eq, Nat.shiftLeft_eq]
  omega

@[simp] theorem f64sign_pack : f64sign (f64pack sign expo frac) = sign := by
  have h1 := expo.isLt
  have h2 := frac.isLt
  have h3 := sign.isLt
  apply BitVec.eq_of_toNat_eq
  rw [f64sign, BitVec.extractLsb'_toNat, f64pack_toNat, Nat.shiftRight_eq_div_pow]
  omega

@[simp] theorem f64expo_pack : f64expo (f64pack sign expo frac) = expo := by
  have h1 := expo.isLt
  have h2 := frac.isLt
  have h3 := sign.isLt
  apply BitVec.eq_of_toNat_eq
  rw [f64expo, BitVec.extractLsb'_toNat, f64pack_toNat, Nat.shiftRight_eq_div_pow]
  omega

@[simp] theorem f64frac_pack : f64frac (f64pack sign expo frac) = frac := by
  have h1 := expo.isLt
  have h2 := frac.isLt
  have h3 := sign.isLt
  apply BitVec.eq_of_toNat_eq
  rw [f64frac, BitVec.extractLsb'_toNat, f64pack_toNat, Nat.shiftRight_eq_div_pow]
  omega

end Pack

@[simp] theorem f64bits_zero (k : Int) : f64bits 0 k = 0#64 := by simp [f64bits]

/-- The place of the most significant bit of a mantissa, which is not 0 (40 R84). -/
theorem msb_bounds {m : Nat} (h : m ≠ 0) : 2 ^ msb m ≤ m ∧ m < 2 ^ (msb m + 1) :=
  ⟨Nat.log2_self_le h, Nat.lt_log2_self⟩

/-- The bounds of R84 say which place it is. -/
theorem msb_eq {m p : Nat} (h1 : 2 ^ p ≤ m) (h2 : m < 2 ^ (p + 1)) : msb m = p := by
  rw [msb, Nat.log2_eq_iff (by have := Nat.two_pow_pos p; omega)]
  exact ⟨h1, h2⟩

theorem msb_lt {m n : Nat} (h : m ≠ 0) (hn : m < 2 ^ n) : msb m < n := by
  rw [msb, Nat.log2_lt h]; exact hn

/-- The fraction of R84 is an integer below 2^52. -/
theorem frac_lt {m : Nat} (h : m ≠ 0) (hm : m < 2 ^ 24) : (m - 2 ^ msb m) * 2 ^ (52 - msb m) < 2 ^ 52 := by
  obtain ⟨h1, h2⟩ := msb_bounds h
  have hp := msb_lt h hm
  calc (m - 2 ^ msb m) * 2 ^ (52 - msb m)
      < 2 ^ msb m * 2 ^ (52 - msb m) := by
        apply Nat.mul_lt_mul_of_pos_right _ (by positivity)
        rw [pow_succ] at h2; omega
    _ = 2 ^ 52 := by rw [← pow_add]; congr 1; omega

/-- The fields of `f64bits(m, k)`, none of them truncated (40 R84). -/
theorem f64bits_fields {m : Nat} {k : Int} {e : Nat} (h : m ≠ 0) (hm : m < 2 ^ 24)
    (he : (1023 : Int) + msb m + k = e) (hlt : e < 2048) :
    f64sign (f64bits m k) = 0#1 ∧ (f64expo (f64bits m k)).toNat = e ∧
      (f64frac (f64bits m k)).toNat = (m - 2 ^ msb m) * 2 ^ (52 - msb m) := by
  have hfrac := frac_lt h hm
  simp only [f64bits, if_neg h, f64sign_pack, f64expo_pack, f64frac_pack, true_and, he]
  refine ⟨?_, ?_⟩
  · rw [BitVec.ofInt_natCast, BitVec.toNat_ofNat]; omega
  · rw [BitVec.toNat_ofNat]; omega

/-- The pattern of a product of nonzero mantissa, as a number. -/
theorem f64bits_toNat {m : Nat} {k : Int} {e : Nat} (h : m ≠ 0) (hm : m < 2 ^ 24)
    (he : (1023 : Int) + msb m + k = e) (hlt : e < 2048) :
    (f64bits m k).toNat = e * 2 ^ 52 + (m - 2 ^ msb m) * 2 ^ (52 - msb m) := by
  rw [f64bits, if_neg h, f64pack_toNat, he, BitVec.ofInt_natCast, BitVec.toNat_ofNat, BitVec.toNat_ofNat,
    BitVec.toNat_ofNat, Nat.mod_eq_of_lt (show e < 2 ^ 11 from hlt), Nat.mod_eq_of_lt (frac_lt h hm),
    Nat.zero_mod, Nat.zero_mul, Nat.zero_add]

/-- One more in the exponent is one more in the exponent field (40 R87). -/
theorem f64bits_succ {m : Nat} {k : Int} (hm : m ≠ 0) (hlt : m < 2 ^ 24) (h1 : 0 ≤ (1023 : Int) + msb m + k)
    (h2 : (1023 : Int) + msb m + k < 2046) : f64bits m (k + 1) = f64bits m k + 0x0010000000000000#64 := by
  obtain ⟨e, he⟩ := Int.eq_ofNat_of_zero_le h1
  have he' : (1023 : Int) + msb m + (k + 1) = ((e + 1 : Nat) : Int) := by omega
  have hf := frac_lt hm hlt
  have e1 := f64bits_toNat hm hlt he (by omega)
  have e2 := f64bits_toNat hm hlt he' (by omega)
  apply BitVec.eq_of_toNat_eq
  rw [BitVec.toNat_add, e1, e2, BitVec.toNat_ofNat]
  have he3 : e < 2046 := by omega
  clear e1 e2 he he'
  revert hf
  generalize (m - 2 ^ msb m) * 2 ^ (52 - msb m) = F
  intro hf
  omega

/-- The significand of R84 times 2^p is m. -/
theorem significand_eq {m : Nat} (h : m ≠ 0) (hm : m < 2 ^ 24) :
    (1 + (((m - 2 ^ msb m) * 2 ^ (52 - msb m) : Nat) : ℚ) / 2 ^ 52) * 2 ^ msb m = m := by
  obtain ⟨h1, -⟩ := msb_bounds h
  have hp : msb m ≤ 52 := by have := msb_lt h hm; omega
  have h52 : (2 : ℚ) ^ 52 = 2 ^ (52 - msb m) * 2 ^ msb m := by rw [← pow_add]; congr 1; omega
  rw [Nat.cast_mul, Nat.cast_sub h1, Nat.cast_pow, Nat.cast_pow, h52]
  have h2 : (2 : ℚ) ^ (52 - msb m) ≠ 0 := by positivity
  have h3 : (2 : ℚ) ^ msb m ≠ 0 := by positivity
  push_cast
  field_simp
  ring

/-- `f64bits(m, k)` stands for exactly m * 2^k where its exponent field is that of a normal number (40 R83, R84). -/
theorem f64bits_exact {m : Nat} {k : Int} (hm : m < 2 ^ 24)
    (hk : m ≠ 0 → 1 ≤ (1023 : Int) + msb m + k ∧ (1023 : Int) + msb m + k ≤ 2046) :
    f64value (f64bits m k) = some ((m : ℚ) * (2 : ℚ) ^ k) := by
  by_cases h : m = 0
  · subst h; simp [f64value]
  · obtain ⟨hlo, hhi⟩ := hk h
    obtain ⟨e, he⟩ := Int.eq_ofNat_of_zero_le (show (0 : Int) ≤ 1023 + msb m + k by omega)
    obtain ⟨hs, hx, hf⟩ := f64bits_fields h hm he (by omega)
    have hne : f64bits m k ≠ 0#64 := by
      intro h0
      rw [h0] at hx
      simp [f64expo] at hx
      omega
    rw [f64value, if_neg hne, if_pos (by omega), hs, hx, hf, if_neg (by decide), one_mul]
    have he' : (e : Int) - 1023 = msb m + k := by omega
    rw [he', zpow_add₀ (by norm_num), zpow_natCast, ← mul_assoc, significand_eq h hm]

section Record
variable (b0 b1 b2 b3 : Byte)

theorem recordWord_toNat : (recordWord b0 b1 b2 b3).toNat =
    b0.toNat * 2 ^ 24 + b1.toNat * 2 ^ 16 + b2.toNat * 2 ^ 8 + b3.toNat := by
  have h1 := b1.isLt
  have h2 := b2.isLt
  have h3 := b3.isLt
  rw [recordWord, BitVec.toNat_append, BitVec.toNat_append, BitVec.toNat_append,
    ← Nat.shiftLeft_add_eq_or_of_lt h3, ← Nat.shiftLeft_add_eq_or_of_lt h2, ← Nat.shiftLeft_add_eq_or_of_lt h1]
  simp only [Nat.shiftLeft_eq]
  omega

@[simp] theorem recordB0_word : recordB0 (recordWord b0 b1 b2 b3) = b0 := by
  apply BitVec.eq_of_toNat_eq
  have h0 := b0.isLt
  have h1 := b1.isLt
  have h2 := b2.isLt
  have h3 := b3.isLt
  rw [recordB0, BitVec.extractLsb'_toNat, recordWord_toNat, Nat.shiftRight_eq_div_pow]
  omega

@[simp] theorem recordB1_word : recordB1 (recordWord b0 b1 b2 b3) = b1 := by
  apply BitVec.eq_of_toNat_eq
  have h0 := b0.isLt
  have h1 := b1.isLt
  have h2 := b2.isLt
  have h3 := b3.isLt
  rw [recordB1, BitVec.extractLsb'_toNat, recordWord_toNat, Nat.shiftRight_eq_div_pow]
  omega

@[simp] theorem recordB2_word : recordB2 (recordWord b0 b1 b2 b3) = b2 := by
  apply BitVec.eq_of_toNat_eq
  have h0 := b0.isLt
  have h1 := b1.isLt
  have h2 := b2.isLt
  have h3 := b3.isLt
  rw [recordB2, BitVec.extractLsb'_toNat, recordWord_toNat, Nat.shiftRight_eq_div_pow]
  omega

@[simp] theorem recordB3_word : recordB3 (recordWord b0 b1 b2 b3) = b3 := by
  apply BitVec.eq_of_toNat_eq
  have h0 := b0.isLt
  have h1 := b1.isLt
  have h2 := b2.isLt
  have h3 := b3.isLt
  rw [recordB3, BitVec.extractLsb'_toNat, recordWord_toNat, Nat.shiftRight_eq_div_pow]
  omega

end Record

/-- The three mantissa bytes do not overlap, so their OR is their sum (40 R81). -/
theorem mantissaReconstruction_toNat (b1 b2 b3 : Byte) :
    (mantissaReconstruction b1 b2 b3).toNat = 65536 * b1.toNat + 256 * b2.toNat + b3.toNat := by
  have h1 := b1.isLt
  have h2 := b2.isLt
  have h3 := b3.isLt
  have e1 : (b1.setWidth 24 <<< 16 : BitVec 24).toNat = b1.toNat <<< 16 := by
    simp only [BitVec.toNat_shiftLeft, BitVec.toNat_setWidth, Nat.shiftLeft_eq]; omega
  have e2 : (b2.setWidth 24 <<< 8 : BitVec 24).toNat = b2.toNat <<< 8 := by
    simp only [BitVec.toNat_shiftLeft, BitVec.toNat_setWidth, Nat.shiftLeft_eq]; omega
  have e3 : (b3.setWidth 24 : BitVec 24).toNat = b3.toNat := by
    simp only [BitVec.toNat_setWidth]; omega
  rw [mantissaReconstruction, BitVec.toNat_or, BitVec.toNat_or, e1, e2, e3,
    show b1.toNat <<< 16 = (b1.toNat <<< 8) <<< 8 by rw [← Nat.shiftLeft_add],
    ← Nat.shiftLeft_or_distrib, ← Nat.shiftLeft_add_eq_or_of_lt h2, ← Nat.shiftLeft_add_eq_or_of_lt h3]
  simp only [Nat.shiftLeft_eq]
  omega

/-- The mantissa of a record is `REC[23:0]` (40 R81). -/
theorem mantissa_of_record (r : Word) :
    mantissaReconstruction (recordB1 r) (recordB2 r) (recordB3 r) = r.extractLsb' 0 24 := by
  apply BitVec.eq_of_toNat_eq
  have h := r.isLt
  rw [mantissaReconstruction_toNat]
  simp only [recordB1, recordB2, recordB3, BitVec.extractLsb'_toNat, Nat.shiftRight_eq_div_pow]
  omega

/-- The datapath on a record word, in the terms of 40 R85 and R86. -/
theorem decodeRecord_eq (r : Word) :
    decodeRecord r =
      { exp := r.extractLsb' 24 8 ^^^ 0x80#8, man := r.extractLsb' 0 24,
        val := f64bits (r.extractLsb' 0 24).toNat ((r.extractLsb' 24 8).toNat - 150),
        raw := f64bits (r.extractLsb' 0 24).toNat ((r.extractLsb' 24 8).toNat - 128) } := by
  simp only [decodeRecord, mantissa_of_record, exponentByte, recordB0, scaledBits, multiplierScaled, multiplierRaw,
    biasedExponentExtraction, Config.bias, Config.mantissaScaleBits, Decoded.mk.injEq, true_and]
  exact ⟨congrArg _ (by omega), congrArg _ (by omega)⟩

end Sys2Proof.Machine
end

