-- ==== Sys2Proof/Laws/Decode.lean ====
section
/-! SUPPORT. The laws of headers and packets: a header is its three fields, what a row of the opcode map says of them,
and which packets decode to which request. -/

namespace Sys2Proof

/-- A header is its fields `[RSV, RLEN, OP]` (30_encoding.md R63). -/
theorem header_eq (h : Word) : h = headerRsv h ++ headerRlen h ++ headerOp h := by
  apply BitVec.eq_of_toNat_eq
  have h0 := h.isLt
  rw [BitVec.toNat_append, BitVec.toNat_append, ← Nat.shiftLeft_add_eq_or_of_lt (headerOp h).isLt,
    ← Nat.shiftLeft_add_eq_or_of_lt (headerRlen h).isLt]
  simp only [headerRsv, headerRlen, headerOp, BitVec.extractLsb'_toNat, Nat.shiftLeft_eq, Nat.shiftRight_eq_div_pow]
  omega

/-- The number a header is, from its fields. -/
theorem fields_toNat (rsv : BitVec 25) (rlen : BitVec 3) (op : BitVec 4) :
    (rsv ++ rlen ++ op : Word).toNat = rsv.toNat * 128 + rlen.toNat * 16 + op.toNat := by
  rw [BitVec.toNat_append, BitVec.toNat_append, ← Nat.shiftLeft_add_eq_or_of_lt op.isLt,
    ← Nat.shiftLeft_add_eq_or_of_lt rlen.isLt]
  simp only [Nat.shiftLeft_eq]
  omega

/-- The fields of a header built from fields. -/
theorem fields_of (rsv : BitVec 25) (rlen : BitVec 3) (op : BitVec 4) :
    headerRsv (rsv ++ rlen ++ op) = rsv ∧ headerRlen (rsv ++ rlen ++ op) = rlen ∧
      headerOp (rsv ++ rlen ++ op) = op := by
  have h1 := rsv.isLt
  have h2 := rlen.isLt
  have h3 := op.isLt
  refine ⟨?_, ?_, ?_⟩ <;> apply BitVec.eq_of_toNat_eq <;>
    simp only [headerRsv, headerRlen, headerOp, BitVec.extractLsb'_toNat, fields_toNat,
      Nat.shiftRight_eq_div_pow] <;> omega

@[simp] theorem headerOp_of (rlen : BitVec 3) (op : BitVec 4) : headerOp (headerOf rlen op) = op :=
  (fields_of 0#25 rlen op).2.2

@[simp] theorem headerRlen_of (rlen : BitVec 3) (op : BitVec 4) : headerRlen (headerOf rlen op) = rlen :=
  (fields_of 0#25 rlen op).2.1

@[simp] theorem headerRsv_of (rlen : BitVec 3) (op : BitVec 4) : headerRsv (headerOf rlen op) = 0#25 :=
  (fields_of 0#25 rlen op).1

/-- Two headers with the same fields are the same word. -/
theorem header_ext {h g : Word} (hr : headerRsv h = headerRsv g) (hl : headerRlen h = headerRlen g)
    (ho : headerOp h = headerOp g) : h = g := by
  rw [header_eq h, header_eq g, hr, hl, ho]

/-- The fields of a header under the DECREC mask of R72. -/
theorem decrecRow_admits {h : Word} : decrecRow.admits h = true ↔ headerOp h = 1#4 ∧ headerRsv h = 0#25 := by
  have mask : (0xFFFFFF8F#32 : Word) = BitVec.allOnes 25 ++ 0#3 ++ BitVec.allOnes 4 := by decide
  have pattern : (0x00000001#32 : Word) = 0#25 ++ 0#3 ++ 1#4 := by decide
  have split : h &&& decrecRow.mask = headerRsv h ++ 0#3 ++ headerOp h := by
    conv_lhs => rw [header_eq h]
    rw [show decrecRow.mask = BitVec.allOnes 25 ++ 0#3 ++ BitVec.allOnes 4 from mask, BitVec.and_append,
      BitVec.and_append, BitVec.and_allOnes, BitVec.and_allOnes, BitVec.and_zero]
  rw [OpcodeRow.admits, beq_iff_eq, split, show decrecRow.pattern = 0#25 ++ 0#3 ++ 1#4 from pattern]
  constructor
  · intro e
    have e1 := congrArg headerOp e
    have e2 := congrArg headerRsv e
    rw [(fields_of _ _ _).2.2, (fields_of _ _ _).2.2] at e1
    rw [(fields_of _ _ _).1, (fields_of _ _ _).1] at e2
    exact ⟨e1, e2⟩
  · rintro ⟨e1, e2⟩; rw [e1, e2]

theorem decbufRow_admits {h : Word} : decbufRow.admits h = true ↔ h = headerOf 0#3 2#4 := by
  have : h &&& 0xFFFFFFFF#32 = h := BitVec.and_allOnes
  simp [OpcodeRow.admits, decbufRow, this, headerOf]

theorem statRow_admits {h : Word} : statRow.admits h = true ↔ h = headerOf 0#3 3#4 := by
  have : h &&& 0xFFFFFFFF#32 = h := BitVec.and_allOnes
  simp [OpcodeRow.admits, statRow, this, headerOf]

/-- No header is of two rows (30_encoding.md R73). -/
theorem rows_disjoint (h : Word) :
    ¬ (decrecRow.admits h = true ∧ decbufRow.admits h = true) ∧
    ¬ (decrecRow.admits h = true ∧ statRow.admits h = true) ∧
    ¬ (decbufRow.admits h = true ∧ statRow.admits h = true) := by
  simp only [decrecRow_admits, decbufRow_admits, statRow_admits]
  refine ⟨?_, ?_, ?_⟩
  · rintro ⟨⟨h1, -⟩, rfl⟩; simp at h1
  · rintro ⟨⟨h1, -⟩, rfl⟩; simp at h1
  · rintro ⟨rfl, h2⟩; exact absurd h2 (by decide)

/-- The packets that decode to DECREC. -/
theorem decode_eq_decrec {p : Packet} {rlen : BitVec 3} {record : Word} :
    decode p = .run (.decrec rlen record) ↔ p = [headerOf rlen 1#4, record] := by
  constructor
  · intro h
    cases p with
    | nil => simp [decode] at h
    | cons w ws =>
      simp only [decode] at h
      split at h
      · rename_i ha
        obtain ⟨h1, h2⟩ := decrecRow_admits.1 ha
        split at h
        · simp only [Req.run.injEq, Instr.decrec.injEq] at h
          obtain ⟨rfl, rfl⟩ := h
          rw [header_ext (h := w) (g := headerOf (headerRlen w) 1#4) (by simp [h2]) (by simp) (by simp [h1])]
          simp
        · simp at h
      · split_ifs at h <;> split at h <;> simp at h
  · rintro rfl
    have ha : decrecRow.admits (headerOf rlen 1#4) = true := decrecRow_admits.2 ⟨by simp, by simp⟩
    simp [decode, ha]

/-- The packets that decode to DECBUF. -/
theorem decode_eq_decbuf {p : Packet} {src len dst : Word} :
    decode p = .run (.decbuf src len dst) ↔ p = [headerOf 0#3 2#4, src, len, dst] := by
  constructor
  · intro h
    cases p with
    | nil => simp [decode] at h
    | cons w ws =>
      simp only [decode] at h
      split at h
      · split at h <;> simp at h
      · split at h
        · rename_i ha
          have hw := decbufRow_admits.1 ha
          split at h
          · simp only [Req.run.injEq, Instr.decbuf.injEq] at h
            obtain ⟨rfl, rfl, rfl⟩ := h
            rw [hw]
          · simp at h
        · split at h
          · split at h <;> simp at h
          · simp at h
  · rintro rfl; rfl

/-- The packets that decode to STAT. -/
theorem decode_eq_stat {p : Packet} : decode p = .run .stat ↔ p = [headerOf 0#3 3#4] := by
  constructor
  · intro h
    cases p with
    | nil => simp [decode] at h
    | cons w ws =>
      simp only [decode] at h
      split at h
      · split at h <;> simp at h
      · split at h
        · split at h <;> simp at h
        · split at h
          · rename_i ha
            have hw := statRow_admits.1 ha
            split at h
            · rw [hw]
            · simp at h
          · simp at h
  · rintro rfl; rfl

end Sys2Proof
end

