-- ==== Sys2Proof/Laws/PerInstr.lean ====
section
/-! SUPPORT. Statements about every request as syntax, made per constructor of `Instr`. -/

namespace Sys2Proof.Laws

/-- The packet of a request is well-formed (30_encoding.md R66). -/
def EncodeWellFormed.Statement (i : Instr) : Prop := Packet.wellFormed (encode i) = true

theorem EncodeWellFormed.decrec (rlen : BitVec 3) (record : Word) :
    EncodeWellFormed.Statement (.decrec rlen record) := by
  have h1 : (headerOf rlen 1#4).extractLsb' 0 4 = 1#4 := headerOp_of rlen 1#4
  have h2 : (headerOf rlen 1#4).extractLsb' 7 25 = 0#25 := headerRsv_of rlen 1#4
  simp [EncodeWellFormed.Statement, encode, Packet.wellFormed, Packet.hasHeader, headerOpKnown,
    Packet.lengthFitsOp, headerWords, headerReservedClear, h1, h2]

theorem EncodeWellFormed.decbuf (src len dst : Word) : EncodeWellFormed.Statement (.decbuf src len dst) := rfl

theorem EncodeWellFormed.stat : EncodeWellFormed.Statement .stat := rfl

end Sys2Proof.Laws
end

