-- ==== Sys2Proof/Tests/Slice0.lean ====
section
/-! SUPPORT. Tests. Expected results are those of spec/95_test_vectors.md, whose section stands at each test, or are worked
out by hand from the rules; the witnesses at the end show a state and operands that meet every statement's hypotheses. -/

namespace Sys2Proof.Tests

open Sys2Proof Sys2Proof.Machine

/-! ### States -/

/-- A CFD just after reset with the capacities of the test vectors: IBUF_BYTES = 16, OBUF_ENTRIES = 4. -/
def ready : State := State.resetWith 16 4

/-- The same after `LOADI 8, 0x83, 0x48, 0, 0, 0x82, 0x70, 0, 0`: the voltage records of program P2. -/
def loaded : State :=
  { ready with ibuf := [(8, 0x83), (9, 0x48), (10, 0), (11, 0), (12, 0x82), (13, 0x70), (14, 0), (15, 0)] }

/-- A CFD halted by InvalidBufferLength, as in section 2.6. -/
def halted : State := { loaded with err := 2#4 }

/-- A state whose host makes one more move. -/
def about (m : HostMove) (s : State) : State := { s with pending := [m] }

/-! ### Well-formedness (30_encoding.md R66): an ill-formed packet for each check -/

theorem test_illformed_empty : Packet.hasHeader [] = false ∧ Packet.wellFormed [] = false := by decide
theorem test_illformed_reserved_op : headerOpKnown 0x00000004#32 = false ∧ Packet.wellFormed [0x00000004#32] = false := by
  decide
theorem test_illformed_length : Packet.lengthFitsOp [0x00000041#32] 0x00000041#32 = false ∧
    Packet.wellFormed [0x00000041#32] = false := by decide
theorem test_illformed_reserved_bits : headerReservedClear 0x80000002#32 = false ∧
    Packet.wellFormed [0x80000002#32, 0#32, 0#32, 0#32] = false := by decide
theorem test_illformed_rlen : headerReservedClear 0x00000043#32 = false ∧ Packet.wellFormed [0x00000043#32] = false := by
  decide

/-! ### Decoding: words written out from the encodings of 30_encoding.md R63 (OP [3:0], RLEN [6:4], RSV [31:7]) -/

theorem test_decode_decrec : decode [0b00000000000000000000000001000001#32, 0x80004000#32] =
    .run (.decrec 4#3 0x80004000#32) := by decide
theorem test_decode_decrec_rlen7 : decode [0b00000000000000000000000001110001#32, 0xFFFFFFFF#32] =
    .run (.decrec 7#3 0xFFFFFFFF#32) := by decide
theorem test_decode_decbuf : decode [0b00000000000000000000000000000010#32, 1#32, 8#32, 2#32] =
    .run (.decbuf 1#32 8#32 2#32) := by decide
theorem test_decode_stat : decode [0b00000000000000000000000000000011#32] = .run .stat := by decide
theorem test_decode_long_stat : decode [0x00000003#32, 0#32] = .illegal .wrongLength := by decide
theorem test_table_word_decrec : decodeTableWord 64 (0x41 + 0x80004000 * 2 ^ 32) = some (.decrec 4#3 0x80004000#32) := by
  decide
theorem test_table_word_decbuf : decodeTableWord 32 2 = some (.decbuf 0#32 0#32 0#32) := by decide
theorem test_table_word_reserved : decodeTableWord 32 0 = none := by decide

/-! ### The datapath -/

/-- 2.1, b0 = 127. -/
theorem test_exponent : biasedExponentExtraction 127#8 = -1 ∧ exponentByte 127#8 = 0xFF#8 := by decide
/-- 2.2, bytes 18, 52, 86. -/
theorem test_mantissa : mantissaReconstruction 18#8 52#8 86#8 = 0x123456#24 := by decide
/-- 2.3, record 0x7FFFFFFF: source vector 3. -/
theorem test_source_vector_three : decodeRecord 0x7FFFFFFF#32 =
    ⟨0xFF#8, 0xFFFFFF#24, 0x3FFFFFFFE0000000#64, 0x415FFFFFE0000000#64⟩ := by decide
/-- 2.3, record 0x00000001: the smallest nonzero value. -/
theorem test_smallest : decodeRecord 0x00000001#32 =
    ⟨0x80#8, 0x000001#24, 0x3690000000000000#64, 0x37F0000000000000#64⟩ := by decide
/-- 2.3, record 0xFFFFFFFF: the largest value. -/
theorem test_largest : decodeRecord 0xFFFFFFFF#32 =
    ⟨0x7F#8, 0xFFFFFF#24, 0x47FFFFFFE0000000#64, 0x495FFFFFE0000000#64⟩ := by decide
/-- 2.3, record 0xFF000000: zero at the maximum exponent. -/
theorem test_zero : decodeRecord 0xFF000000#32 = ⟨0x7F#8, 0#24, 0#64, 0#64⟩ := by decide

/-! ### The requests, one step each -/

/-- 1.5, source vector 2: the response of `DECREC.B 129, 0, 0, 1`. -/
theorem test_decrec_response : (nextOf (step (about (.request (asmDecrecB 129 0 0 1)) ready))).map (·.responses) =
    some [[0x00000000#32, 0x01000001#32, 0x00000000#32, 0x3EA00000#32, 0x00000000#32, 0x40000000#32]] := by decide
/-- 2.4, RLEN = 5. -/
theorem test_decrec_too_long : (nextOf (step (about (.request [0x00000051#32, 0x80004000#32]) ready))).map
    (fun t => (t.responses, t.err)) = some ([[1#32]], 1#4) := by decide
/-- P2 row 4: `DECBUF 8, 8, 2`. -/
theorem test_decbuf_writes : (nextOf (step (about (.request (asmDecbuf 8 8 2)) loaded))).map
    (fun t => (t.responses, t.obuf)) =
    some ([[0#32, 2#32]], [(2, 0x4022000000000000#64), (3, 0x401C000000000000#64)]) := by decide
/-- 2.5, `DECBUF 0xFFFFFFFC, 8, 0`: no 32-bit wrap. -/
theorem test_decbuf_no_wrap : (nextOf (step (about (.request (asmDecbuf 0xFFFFFFFC 8 0)) loaded))).map
    (fun t => (t.responses, t.err, t.obuf)) = some ([[4#32]], 4#4, []) := by decide
/-- 2.6, STAT on a halted CFD. -/
theorem test_stat_halted : (nextOf (step (about (.request asmStat) halted))).map (fun t => (t.responses, t.err)) =
    some ([[2#32]], 2#4) := by decide
/-- 2.4, the empty packet. -/
theorem test_empty_packet : (nextOf (step (about (.request []) ready))).map (fun t => (t.responses, t.err)) =
    some ([[3#32]], 3#4) := by decide
/-- 2.6, an illegal word on a halted CFD does not replace ERR. -/
theorem test_halted_keeps_first_error : (nextOf (step (about (.request [0#32]) halted))).map
    (fun t => (t.responses, t.err)) = some ([[2#32]], 2#4) := by decide
/-- 2.6, RESET: no response, ERR = 0, buffers unwritten. -/
theorem test_reset : (nextOf (step (about .reset halted))).map (fun t => (t.responses, t.err, t.ibuf)) =
    some ([], 0#4, []) := by decide
/-- The first request after reset, whatever the capacities are: `DECBUF 0, 0, 0` responds [0, 0] (2.5). -/
theorem test_first_step_after_reset : (nextOf (step (State.reset.withFetchWord 32 2))).map (·.responses) =
    some [[0#32, 0#32]] := by decide
/-- LOADI is one HostWriteIBUF a byte, at rising addresses (30_encoding.md R71). -/
theorem test_loadi : loadi 0 [128#8, 64#8] = [.writeIbuf 0 128#8, .writeIbuf 1 64#8] := by decide
/-- The first packet of R71's pseudo-instruction DECREC.B. -/
theorem test_asm_decrec_b : asmDecrecB 128 0 64 0 = [0x00000041#32, 0x80004000#32] := by decide

/-! ### Witnesses: the hypotheses of every statement that has some are met -/

theorem witness_OpcodeMapByMaskAndMatch : ready.err = 0#4 ∧
    (0x00000041#32 &&& 0xFFFFFF8F#32 = 0x00000001#32 ∧ [0x00000041#32].length ≠ 2) ∧
    (0x00000002#32 &&& 0xFFFFFFFF#32 = 0x00000002#32 ∧ [0x00000002#32].length ≠ 4) ∧
    (0x00000003#32 &&& 0xFFFFFFFF#32 = 0x00000003#32 ∧ [0x00000003#32, 0#32].length ≠ 1) ∧
    (0x00000012#32 &&& 0xFFFFFF8F#32 ≠ 0x00000001#32 ∧ 0x00000012#32 &&& 0xFFFFFFFF#32 ≠ 0x00000002#32 ∧
      0x00000012#32 &&& 0xFFFFFFFF#32 ≠ 0x00000003#32) := by decide

theorem witness_BiasedExponentExtraction : ((-128 : Int) ≤ -128 ∧ (-128 : Int) ≤ 127) ∧ ((-128 : Int) ≤ 127 ∧
    (127 : Int) ≤ 127) := by decide

theorem witness_MultiplierIsExact : (0#24 : Mantissa) = 0#24 ∧
    ((0xFFFFFF#24 : Mantissa) ≠ 0#24 ∧ (-128 : Int) ≤ 127 ∧ (127 : Int) ≤ 127) ∧
    ((1#24 : Mantissa) ≠ 0#24 ∧ (-128 : Int) ≤ -128 ∧ (-128 : Int) ≤ 127) := by decide

theorem witness_F64BitsIsExact :
    (2 ^ 0 ≤ 1 ∧ 1 < 2 ^ (0 + 1) ∧ 0 ≤ 23 ∧ (1 : Int) ≤ 1023 + (0 : Nat) + (-1022) ∧
      (1023 : Int) + (0 : Nat) + (-1022) ≤ 2046) ∧
    (2 ^ 23 ≤ 0xFFFFFF ∧ 0xFFFFFF < 2 ^ (23 + 1) ∧ 23 ≤ 23 ∧ (1 : Int) ≤ 1023 + (23 : Nat) + 1000 ∧
      (1023 : Int) + (23 : Nat) + 1000 ≤ 2046) := by decide

theorem witness_OutputPatternsAreNormal :
    ((0xFF000000#32 : Word).extractLsb' 0 24).toNat = 0 ∧
    (2 ^ 0 ≤ ((0x00000001#32 : Word).extractLsb' 0 24).toNat ∧
      ((0x00000001#32 : Word).extractLsb' 0 24).toNat < 2 ^ (0 + 1)) ∧
    (2 ^ 23 ≤ ((0xFFFFFFFF#32 : Word).extractLsb' 0 24).toNat ∧
      ((0xFFFFFFFF#32 : Word).extractLsb' 0 24).toNat < 2 ^ (23 + 1)) := by decide

theorem witness_NextExponentDoubles : ((254#8 : Byte).toNat < 255 ∧ ¬ ((0#8 : Byte) = 0#8 ∧ (64#8 : Byte) = 0#8 ∧
    (0#8 : Byte) = 0#8)) ∧ ((0#8 : Byte).toNat < 255 ∧ (0#8 : Byte) = 0#8 ∧ (0#8 : Byte) = 0#8 ∧ (0#8 : Byte) = 0#8) := by
  decide

theorem witness_DecrecRequest : ready.err = 0#4 ∧ (3#3 : BitVec 3) ≠ 4#3 ∧ (5#3 : BitVec 3) ≠ 4#3 := by decide

/-- One for each clause of DecbufRequest: a bad length, a source overrun by one byte (17 > 16), a destination
overrun by one entry (5 > 4), and a whole buffer that
ends at the last byte of IBUF and the last entry of OBUF. -/
theorem witness_DecbufRequest :
    (loaded.err = 0#4 ∧ (5#32 : Word).toNat % 4 ≠ 0) ∧
    ((4#32 : Word).toNat % 4 = 0 ∧ (13#32 : Word).toNat + (4#32 : Word).toNat > loaded.ibufBytes.val) ∧
    ((16#32 : Word).toNat % 4 = 0 ∧ (1#32 : Word).toNat + (16#32 : Word).toNat / 4 > loaded.obufEntries.val) ∧
    ((8#32 : Word).toNat % 4 = 0 ∧ (8#32 : Word).toNat + (8#32 : Word).toNat ≤ loaded.ibufBytes.val ∧
      (2#32 : Word).toNat + (8#32 : Word).toNat / 4 ≤ loaded.obufEntries.val ∧ Memory.wf loaded.obuf ∧
      Loaded loaded (8#32 : Word).toNat (8#32 : Word).toNat ∧
      Memory.read loaded.ibuf ((8#32 : Word).toNat + 4 * 1) = some 0x82#8 ∧
      Memory.read loaded.ibuf ((8#32 : Word).toNat + 4 * 1 + 1) = some 0x70#8 ∧
      Memory.read loaded.ibuf ((8#32 : Word).toNat + 4 * 1 + 2) = some 0#8 ∧
      Memory.read loaded.ibuf ((8#32 : Word).toNat + 4 * 1 + 3) = some 0#8) := by decide

theorem witness_EmptyBufferWritesNothing : ready.err = 0#4 ∧ (16#32 : Word).toNat ≤ ready.ibufBytes.val ∧
    (4#32 : Word).toNat ≤ ready.obufEntries.val := by decide

theorem witness_DecbufUnwrittenInput : ready.err = 0#4 ∧ (4#32 : Word).toNat % 4 = 0 ∧
    (12#32 : Word).toNat + (4#32 : Word).toNat ≤ ready.ibufBytes.val ∧
    (3#32 : Word).toNat + (4#32 : Word).toNat / 4 ≤ ready.obufEntries.val ∧
    3 < (4#32 : Word).toNat ∧ Memory.read ready.ibuf ((12#32 : Word).toNat + 3) = none := by decide

theorem witness_DecbufAgreesWithDecrec : loaded.err = 0#4 ∧ Memory.wf loaded.obuf ∧
    ∃ t, exec (.decbuf 8#32 8#32 2#32) loaded = .next t ∧ t.err = 0#4 ∧ 1 < (8#32 : Word).toNat / 4 :=
  ⟨rfl, wf, _, rfl, rfl, by decide⟩
where wf : Memory.wf loaded.obuf := by decide

/-- The record at byte 12, decoded by two different requests of two different states. -/
theorem witness_EntryDependsOnlyOnItsRecord : loaded.err = 0#4 ∧ Memory.wf loaded.obuf ∧
    (∃ t, exec (.decbuf 8#32 8#32 2#32) loaded = .next t ∧ t.err = 0#4) ∧
    (∃ t, exec (.decbuf 12#32 4#32 0#32) { loaded with obuf := [(1, 0#64)] } = .next t ∧ t.err = 0#4) ∧
    1 < (8#32 : Word).toNat / 4 ∧ 0 < (4#32 : Word).toNat / 4 ∧
    (∀ k, k < 4 → Memory.read loaded.ibuf ((8#32 : Word).toNat + 4 * 1 + k) =
      Memory.read loaded.ibuf ((12#32 : Word).toNat + 4 * 0 + k)) :=
  ⟨rfl, by decide, ⟨_, rfl, rfl⟩, ⟨_, rfl, rfl⟩, by decide, by decide, by decide⟩

theorem witness_SplitBufferSameOutput : loaded.err = 0#4 ∧
    (8#32 : Word).toNat = (4#32 : Word).toNat + (4#32 : Word).toNat ∧ (4#32 : Word).toNat % 4 = 0 ∧
    (12#32 : Word).toNat = (8#32 : Word).toNat + (4#32 : Word).toNat ∧
    (3#32 : Word).toNat = (2#32 : Word).toNat + (4#32 : Word).toNat / 4 ∧
    ∃ t, exec (.decbuf 8#32 8#32 2#32) loaded = .next t ∧ t.err = 0#4 :=
  ⟨rfl, by decide, by decide, by decide, by decide, _, rfl, rfl⟩

theorem witness_IllegalPacketRaises : ready.err = 0#4 ∧ Packet.wellFormed [0x0000000F#32] = false := by decide

theorem witness_ExceptionEntry : ready.err = 0#4 ∧ ∃ t, serve (asmDecbuf 0 5 0) ready = .next t ∧ t.err ≠ 0#4 :=
  ⟨rfl, _, rfl, by decide⟩

theorem witness_HaltedUntilReset : halted.err ≠ 0#4 ∧
    (∃ t, step (about (.request asmStat) halted) = .next t ∧ t.err = halted.err) ∧
    (∃ t, step (about .reset halted) = .next t ∧ t.err = 0#4) ∧
    (∃ t, step (about (.abandon [0#32]) halted) = .next t ∧ t.err = 0#4) :=
  ⟨by decide, ⟨_, rfl, rfl⟩, ⟨_, rfl, rfl⟩, ⟨_, rfl, rfl⟩⟩

/-- A request at each rank of the rule: halted, ill-formed, RLEN, LEN, source range, destination range, and the fault. -/
theorem witness_PriorityOfChecks :
    (nextOf (serve [] halted)).map (·.err) = some 2#4 ∧
    (nextOf (serve [0x00000012#32, 0#32, 5#32, 0#32] ready)).map (·.err) = some 3#4 ∧
    (nextOf (serve [0x00000031#32, 0x80004000#32] ready)).map (·.err) = some 1#4 ∧
    (nextOf (serve (asmDecbuf 0 7 9) ready)).map (·.err) = some 2#4 ∧
    (nextOf (serve (asmDecbuf 20 0 0) ready)).map (·.err) = some 4#4 ∧
    (nextOf (serve (asmDecbuf 0 0 5) ready)).map (·.err) = some 4#4 ∧
    faultOf (serve (asmDecbuf 0 4 0) ready) = some .unwrittenInput := by decide

theorem witness_OneResponsePerRequest :
    (∃ t, serve (asmDecrec 0x80004000#32) ready = .next t ∧ t.err = 0#4 ∧
      decode (asmDecrec 0x80004000#32) = .run (.decrec 4#3 0x80004000#32)) ∧
    (∃ t, serve (asmDecbuf 8 8 2) loaded = .next t ∧ t.err = 0#4 ∧
      decode (asmDecbuf 8 8 2) = .run (.decbuf 8#32 8#32 2#32)) ∧
    (∃ t, serve asmStat halted = .next t ∧ t.err ≠ 0#4 ∧ decode asmStat = .run .stat) :=
  ⟨⟨_, rfl, rfl, rfl⟩, ⟨_, rfl, rfl, rfl⟩, ⟨_, rfl, by decide, rfl⟩⟩

theorem witness_RequestFrame : Memory.wf loaded.obuf ∧ (∃ t, exec (.decrec 4#3 0x80004000#32) loaded = .next t) ∧
    (∃ t, exec (.decbuf 8#32 8#32 2#32) loaded = .next t) ∧ (∃ t, exec .stat loaded = .next t) ∧
    halted.err ≠ 0#4 ∧ (∃ t, exec (.decrec 3#3 0#32) loaded = .next t ∧ t.err ≠ 0#4) :=
  ⟨by decide, ⟨_, rfl⟩, ⟨_, rfl⟩, ⟨_, rfl⟩, by decide, ⟨_, rfl, by decide⟩⟩

theorem witness_InvariantKeptByStep : (about (.request (asmDecbuf 8 8 2)) loaded).Inv ∧
    ∃ t, step (about (.request (asmDecbuf 8 8 2)) loaded) = .next t :=
  ⟨inv, _, rfl⟩
where inv : (about (.request (asmDecbuf 8 8 2)) loaded).Inv := by decide

theorem witness_ResetMove : (about .reset halted).pending = .reset :: [] ∧
    (about (.abandon asmStat) halted).pending = .abandon asmStat :: [] := by decide

/-- The last byte of IBUF, and the last entry of OBUF written and unwritten. -/
theorem witness_HostAccesses :
    ((about (.writeIbuf 15 7) ready).pending = .writeIbuf 15 7 :: [] ∧ 15 < ready.ibufBytes.val ∧
      Memory.wf ready.ibuf) ∧
    ((about (.readObuf 3) ready).pending = .readObuf 3 :: [] ∧ 3 < ready.obufEntries.val ∧
      Memory.read [(3, (9#64 : Entry))] 3 = some 9#64 ∧ Memory.read ready.obuf 3 = none) := by decide

theorem witness_HostAccessOutOfRangeRefused :
    ((about (.writeIbuf 16 7) ready).pending = .writeIbuf 16 7 :: [] ∧ ready.ibufBytes.val ≤ 16) ∧
    ((about (.readObuf 4) ready).pending = .readObuf 4 :: [] ∧ ready.obufEntries.val ≤ 4) := by decide

theorem witness_HostWritesThenReadsBack : ready.err = 0#4 ∧ Memory.wf ready.ibuf ∧ Memory.wf ready.obuf ∧
    (12#32 : Word).toNat + 4 ≤ ready.ibufBytes.val ∧ (3#32 : Word).toNat + 1 ≤ ready.obufEntries.val ∧
    ({ ready with pending := loadi 12 [131#8, 72#8, 0#8, 0#8] ++
      [.request (asmDecbuf 12 4 3), .readObuf 3] } : State).pending =
      .writeIbuf (12#32 : Word).toNat 131#8 :: .writeIbuf ((12#32 : Word).toNat + 1) 72#8 ::
        .writeIbuf ((12#32 : Word).toNat + 2) 0#8 :: .writeIbuf ((12#32 : Word).toNat + 3) 0#8 ::
        .request [0x00000002#32, 12#32, 4#32, 3#32] :: .readObuf (3#32 : Word).toNat :: [] := by decide

theorem witness_OnlyHostWritesInput : Memory.wf loaded.ibuf ∧
    (∃ t, step (about (.writeIbuf 8 1) loaded) = .next t ∧ Memory.read t.ibuf 8 ≠ Memory.read loaded.ibuf 8) ∧
    (∃ t, step (about .reset loaded) = .next t ∧ Memory.read t.ibuf 8 ≠ Memory.read loaded.ibuf 8) ∧
    (∃ t, step (about (.abandon asmStat) loaded) = .next t ∧ Memory.read t.ibuf 8 ≠ Memory.read loaded.ibuf 8) :=
  ⟨by decide, ⟨_, rfl, by decide⟩, ⟨_, rfl, by decide⟩, ⟨_, rfl, by decide⟩⟩

theorem witness_OnlyDecbufWritesOutput : Memory.wf loaded.obuf ∧
    (∃ t, step (about (.request (asmDecbuf 8 8 2)) loaded) = .next t ∧
      Memory.read t.obuf 3 ≠ Memory.read loaded.obuf 3) ∧
    (let u : State := { loaded with obuf := [(0, 1#64)] }
     Memory.wf u.obuf ∧
      (∃ t, step (about .reset u) = .next t ∧ Memory.read t.obuf 0 ≠ Memory.read u.obuf 0) ∧
      (∃ t, step (about (.abandon asmStat) u) = .next t ∧ Memory.read t.obuf 0 ≠ Memory.read u.obuf 0)) :=
  ⟨by decide, ⟨_, rfl, by decide⟩, by decide, ⟨_, rfl, by decide⟩, ⟨_, rfl, by decide⟩⟩

theorem witness_ParametersAndHistoryKept : ∃ t, step (about (.request asmStat) loaded) = .next t := ⟨_, rfl⟩

theorem witness_StepRunsDecodedRequest : (about (.request asmStat) loaded).pending = .request asmStat :: [] ∧
    decode asmStat = .run .stat := by decide

theorem witness_WaitingKeepsState : ready.pending = [] := by decide

theorem witness_FaultsOnlyFromUnwritten : step (about (.request (asmDecbuf 0 4 0)) ready) = .fault .unwrittenInput ∧
    step (about (.readObuf 3) ready) = .fault .unwrittenOutput := ⟨rfl, rfl⟩

end Sys2Proof.Tests
end

/-! The statements of 10_state.md: what a step that gives a next state can have done, the invariant each operation
keeps, and the five obligations put together from these. -/

namespace Sys2Proof.Machine

/-! ### What a step that gives a next state can have done -/

/-- A request that gives a next state answers and writes nothing, or takes an exception, or is a DECBUF that passed its
checks and ran to its end (40_record_decode.md R90, 41_buffer_decode.md R100, 42_status.md R120). -/
theorem exec_eq_next {i : Instr} {s t : State} (he : exec i s = .next t) :
    (∃ ws, t = answer ws s) ∨ (s.err = 0#4 ∧ ∃ e, t = raise e s) ∨
    (s.err = 0#4 ∧ ∃ src len dst ob, i = .decbuf src len dst ∧ DecbufChecks src len dst s ∧
      decodeRun s.ibuf src.toNat dst.toNat 0 s.obuf (len.toNat / 4) = some ob ∧
      t = answer [BitVec.ofNat 32 (len.toNat / 4)] (setObuf ob s)) := by
  cases i with
  | decrec rlen record =>
    by_cases h : s.err = 0#4
    · rw [exec, execDecrec_of_ready h] at he
      cases he
      split_ifs
      · exact .inl ⟨_, rfl⟩
      · exact .inr (.inl ⟨h, _, rfl⟩)
    · rw [exec_of_halted h] at he
      cases he
      exact .inl ⟨_, rfl⟩
  | decbuf src len dst =>
    rcases execDecbuf_cases src len dst s with
      ⟨_, he'⟩ | ⟨h, _, he'⟩ | ⟨h, _, _, he'⟩ | ⟨_, _, _, he'⟩ | ⟨h, hc, ob, hd, he'⟩
    all_goals
      rw [exec, he'] at he
      cases he
    · exact .inl ⟨_, rfl⟩
    · exact .inr (.inl ⟨h, _, rfl⟩)
    · exact .inr (.inl ⟨h, _, rfl⟩)
    · exact .inr (.inr ⟨h, src, len, dst, ob, rfl, hc, hd, rfl⟩)
  | stat =>
    cases he
    exact .inl ⟨_, rfl⟩

/-- An illegal packet gives a next state in two ways: the answer of a halted CFD, or IllegalRequest
(60_exceptions.md R133, R134). -/
theorem serveIllegal_eq_next {s t : State} (he : serveIllegal s = .next t) :
    t = answer [] s ∨ t = raise .illegalRequest s := by
  by_cases h : s.err = 0#4
  · rw [serveIllegal, whenReady_of_ready h] at he
    cases he
    exact .inr rfl
  · rw [serveIllegal, whenReady_of_halted h] at he
    cases he
    exact .inl rfl

theorem hostWriteIbuf_eq_next {a : Nat} {v : Byte} {s t : State} :
    hostWriteIbuf a v s = .next t ↔ a < s.ibufBytes.val ∧ t = { s with ibuf := Memory.write s.ibuf a v } := by
  by_cases ha : a < s.ibufBytes.val <;> simp [hostWriteIbuf, ha, eq_comm]

theorem hostReadObuf_eq_next {j : Nat} {s t : State} :
    hostReadObuf j s = .next t ↔ j < s.obufEntries.val ∧
      ∃ v, Memory.read s.obuf j = some v ∧ t = { s with readouts := s.readouts ++ [(j, v)] } := by
  by_cases hj : j < s.obufEntries.val
  · cases hr : Memory.read s.obuf j <;> simp [hostReadObuf, hj, hr, eq_comm]
  · simp [hostReadObuf, hj]

/-! ### The invariant -/

section Invariant
variable {s t : State}

/-- The response list, the pending moves and the reads made are no part of the invariant. -/
theorem inv_answer (hs : s.Inv) (ws : Packet) : (answer ws s).Inv := hs

theorem inv_raise (hs : s.Inv) (e : Cause) : (raise e s).Inv := ⟨causeCode_le e, hs.2⟩

theorem inv_resetCfd (s : State) : (resetCfd s).Inv := ⟨by simp, wf_nil, within_nil _, wf_nil, within_nil _⟩

/-- DECBUF's loop writes entries `dst` to `dst + N - 1` only, which its range check holds inside OBUF. -/
theorem inv_setObuf_decodeRun (hs : s.Inv) {src dst n : Nat} {ob : List (Nat × Entry)}
    (hrange : dst + n ≤ s.obufEntries.val) (hrun : decodeRun s.ibuf src dst 0 s.obuf n = some ob) :
    (setObuf ob s).Inv := by
  obtain ⟨herr, hiwf, hiin, howf, hoin⟩ := hs
  obtain ⟨hwf, -, -⟩ := decodeRun_eq_some howf hrun
  exact ⟨herr, hiwf, hiin, hwf, decodeRun_within hoin hrange hrun⟩

theorem exec_keeps_inv {i : Instr} (hs : s.Inv) (he : exec i s = .next t) : t.Inv := by
  rcases exec_eq_next he with ⟨ws, rfl⟩ | ⟨-, e, rfl⟩ | ⟨-, src, len, dst, ob, -, ⟨-, -, hdst⟩, hrun, rfl⟩
  · exact inv_answer hs ws
  · exact inv_raise hs e
  · exact inv_answer (inv_setObuf_decodeRun hs hdst hrun) _

theorem serveIllegal_keeps_inv (hs : s.Inv) (he : serveIllegal s = .next t) : t.Inv := by
  rcases serveIllegal_eq_next he with rfl | rfl
  · exact inv_answer hs []
  · exact inv_raise hs .illegalRequest

theorem serve_keeps_inv {p : Packet} (hs : s.Inv) (he : serve p s = .next t) : t.Inv := by
  unfold serve at he
  split at he
  · exact exec_keeps_inv hs he
  · exact serveIllegal_keeps_inv hs he

theorem hostWriteIbuf_keeps_inv {a : Nat} {v : Byte} (hs : s.Inv) (he : hostWriteIbuf a v s = .next t) : t.Inv := by
  obtain ⟨ha, rfl⟩ := hostWriteIbuf_eq_next.1 he
  obtain ⟨herr, hiwf, hiin, hobuf⟩ := hs
  exact ⟨herr, wf_write hiwf a v, within_write hiin ha v, hobuf⟩

theorem hostReadObuf_keeps_inv {j : Nat} (hs : s.Inv) (he : hostReadObuf j s = .next t) : t.Inv := by
  obtain ⟨-, v, -, rfl⟩ := hostReadObuf_eq_next.1 he
  exact hs

theorem hostMove_keeps_inv {m : HostMove} (hs : s.Inv) (he : hostMove m s = .next t) : t.Inv := by
  cases m with
  | request p => exact serve_keeps_inv hs he
  | writeIbuf a v => exact hostWriteIbuf_keeps_inv hs he
  | readObuf j => exact hostReadObuf_keeps_inv hs he
  | reset => cases he; exact inv_resetCfd s
  | abandon p => cases he; exact inv_resetCfd s

end Invariant

/-- Settles O29: the invariant does not speak of the pending moves, and every move of the host keeps it. -/
theorem invariantKeptByStep : Obligations.InvariantKeptByStep := by
  intro s t hs he
  rcases step_cases s with ⟨-, hstep⟩ | ⟨m, rest, -, hstep⟩
  · rw [hstep] at he
    cases he
    exact hs
  · exact hostMove_keeps_inv (s := { s with pending := rest }) hs (hstep ▸ he)

/-! ### The parameters, the queue of moves and the two lists -/

/-- What every outcome of a move owes the state before it: the capacities and the queue are as they were, and each of the
two lists is the old one with at most one item added at its end (10_state.md R28; log 1, log 2). -/
structure Extends (s t : State) : Prop where
  ibufBytes : t.ibufBytes = s.ibufBytes
  obufEntries : t.obufEntries = s.obufEntries
  pending : t.pending = s.pending
  responses : ∃ ws : List Packet, t.responses = s.responses ++ ws ∧ ws.length ≤ 1
  readouts : ∃ rs : List (Nat × Entry), t.readouts = s.readouts ++ rs ∧ rs.length ≤ 1

section Extends
variable {s t : State}

/-- A next state with both lists as they were, as after RESET or a write of IBUF. -/
theorem Extends.of_eq (hib : t.ibufBytes = s.ibufBytes) (hob : t.obufEntries = s.obufEntries)
    (hp : t.pending = s.pending) (hw : t.responses = s.responses) (hr : t.readouts = s.readouts) : Extends s t :=
  ⟨hib, hob, hp, ⟨[], by simp [hw]⟩, ⟨[], by simp [hr]⟩⟩

theorem extends_of_serve {p : Packet} (he : serve p s = .next t) : Extends s t := by
  obtain ⟨-, hib, hob, hp, hr, w, hw⟩ := serve_frame he
  exact ⟨hib, hob, hp, ⟨[w], hw, le_rfl⟩, ⟨[], by simp [hr]⟩⟩

theorem extends_of_hostWriteIbuf {a : Nat} {v : Byte} (he : hostWriteIbuf a v s = .next t) : Extends s t := by
  obtain ⟨-, rfl⟩ := hostWriteIbuf_eq_next.1 he
  exact .of_eq rfl rfl rfl rfl rfl

theorem extends_of_hostReadObuf {j : Nat} (he : hostReadObuf j s = .next t) : Extends s t := by
  obtain ⟨-, v, -, rfl⟩ := hostReadObuf_eq_next.1 he
  exact ⟨rfl, rfl, rfl, ⟨[], by simp⟩, ⟨[(j, v)], rfl, le_rfl⟩⟩

theorem extends_resetCfd (s : State) : Extends s (resetCfd s) := .of_eq rfl rfl rfl rfl rfl

theorem extends_of_hostMove {m : HostMove} (he : hostMove m s = .next t) : Extends s t := by
  cases m with
  | request p => exact extends_of_serve he
  | writeIbuf a v => exact extends_of_hostWriteIbuf he
  | readObuf j => exact extends_of_hostReadObuf he
  | reset => cases he; exact extends_resetCfd s
  | abandon p => cases he; exact extends_resetCfd s

end Extends

/-- Settles O38: the step takes the first move off the queue, and what it then does only extends the two lists. -/
theorem parametersAndHistoryKept : Obligations.ParametersAndHistoryKept := by
  intro s t he
  rcases step_cases s with ⟨hp, hstep⟩ | ⟨m, rest, hp, hstep⟩
  · rw [hstep] at he
    cases he
    exact ⟨rfl, rfl, by simp [hp], ⟨[], by simp⟩, ⟨[], by simp⟩⟩
  · obtain ⟨hib, hob, hrest, hw, hr⟩ := extends_of_hostMove (hstep ▸ he)
    exact ⟨hib, hob, by rw [hrest, hp, List.tail_cons], hw, hr⟩

/-! ### STATUS and the state after reset -/

theorem isReady_iff {s : State} : isReady s = true ↔ s.err = 0#4 := by simp [isReady]

/-- ERR stands in the low four bits of STATUS unchanged, so no information is lost (10_state.md R24). -/
theorem extractLsb'_statusWord_low (s : State) : (statusWord s).extractLsb' 0 4 = s.err := by
  rw [statusWord, ← BitVec.setWidth_eq_extractLsb' (by decide), BitVec.setWidth_setWidth_of_le _ (by decide),
    BitVec.setWidth_eq]

theorem extractLsb'_statusWord_high (s : State) : (statusWord s).extractLsb' 4 28 = 0#28 := by
  ext k hk
  simp [statusWord]

theorem statusWord_eq_zero_iff {s : State} : statusWord s = 0#32 ↔ s.err = 0#4 := by
  refine ⟨fun h => ?_, status_ready⟩
  rw [← extractLsb'_statusWord_low s, h]
  rfl

/-- Settles O22: ERR is read back from STATUS[3:0], so STATUS is 0 only where ERR is. -/
theorem statusWordShowsErr : Obligations.StatusWordShowsErr := fun s =>
  ⟨extractLsb'_statusWord_low s, extractLsb'_statusWord_high s, statusWord_eq_zero_iff.trans isReady_iff.symm,
    isReady_iff⟩

/-- After reset the invariant holds with any capacities, since both memories are empty. -/
theorem inv_resetWith (ib ob : Capacity) : (State.resetWith ib ob).Inv :=
  ⟨by simp [State.resetWith], wf_nil, within_nil _, wf_nil, within_nil _⟩

/-- Settles O30: the reset state is the one with the two OPEN capacities. -/
theorem resetMeetsInvariant : Obligations.ResetMeetsInvariant := inv_resetWith _ _

/-- Settles O31: nothing is written after reset, and STATUS shows ERR = 0. -/
theorem resetValues : Obligations.ResetValues :=
  ⟨fun _ _ => ⟨rfl, status_ready rfl, read_nil, read_nil, rfl⟩, Config.ibufBytes, Config.obufEntries, rfl⟩

end Sys2Proof.Machine

/-! The statements of 20_memory.md: what a move of the host does to each of the two memories, what a request leaves
unchanged, and the hand-off of a record from the host to DECBUF and back. -/

namespace Sys2Proof.Machine

/-! ### The host's accesses -/

section HostAccess
variable {s : State} {rest : List HostMove}

theorem step_of_pending {m : HostMove} (h : s.pending = m :: rest) : step s = hostMove m { s with pending := rest } := by
  simp [step, nextMove, h]

theorem step_writeIbuf {a : Nat} {b : Byte} (h : s.pending = .writeIbuf a b :: rest) (ha : a < s.ibufBytes.val) :
    step s = .next { s with ibuf := Memory.write s.ibuf a b, pending := rest } := by
  rw [step_of_pending h]
  exact hostWriteIbuf_eq_next.2 ⟨ha, rfl⟩

theorem step_readObuf {j : Nat} {v : Entry} (h : s.pending = .readObuf j :: rest) (hj : j < s.obufEntries.val)
    (hv : Memory.read s.obuf j = some v) :
    step s = .next { s with readouts := s.readouts ++ [(j, v)], pending := rest } := by
  rw [step_of_pending h]
  exact hostReadObuf_eq_next.2 ⟨hj, v, hv, rfl⟩

theorem hostReadObuf_of_unwritten {j : Nat} (hj : j < s.obufEntries.val) (hv : Memory.read s.obuf j = none) :
    hostReadObuf j s = .fault .unwrittenOutput := by
  simp [hostReadObuf, hj, hv]

theorem hostWriteIbuf_of_le {a : Nat} (ha : s.ibufBytes.val ≤ a) (b : Byte) :
    hostWriteIbuf a b s = .refused .hostAccessOutOfRange :=
  if_neg (Nat.not_lt.2 ha)

theorem hostReadObuf_of_le {j : Nat} (hj : s.obufEntries.val ≤ j) :
    hostReadObuf j s = .refused .hostAccessOutOfRange :=
  if_neg (Nat.not_lt.2 hj)

end HostAccess

/-- Settles O33: the write is `Memory.write`, whose read law is `read_write`; the read answers what the entry holds. -/
theorem hostAccesses : Obligations.HostAccesses := by
  refine ⟨fun s a b rest hp ha hwf => ?_, fun s j v rest hp hj hv => ?_, fun s j rest hp hj hv => ?_⟩
  · exact ⟨Memory.write s.ibuf a b, step_writeIbuf hp ha, read_write hwf a b⟩
  · exact step_readObuf hp hj hv
  · rw [step_of_pending hp]
    exact hostReadObuf_of_unwritten (s := { s with pending := rest }) hj hv

/-- Settles O34: both accesses check their address before anything else. -/
theorem hostAccessOutOfRangeRefused : Obligations.HostAccessOutOfRangeRefused := by
  refine ⟨fun s a b rest hp ha => ?_, fun s j rest hp hj => ?_⟩
  · rw [step_of_pending hp]
    exact hostWriteIbuf_of_le (s := { s with pending := rest }) ha b
  · rw [step_of_pending hp]
    exact hostReadObuf_of_le (s := { s with pending := rest }) hj

/-! ### What a request leaves unchanged -/

section RequestFrame
variable {s t : State}

theorem exec_decrec_eq_next {rlen : BitVec 3} {record : Word} (he : exec (.decrec rlen record) s = .next t) :
    (∃ ws, t = answer ws s) ∨ t = raise .invalidRecordLength s := by
  by_cases h : s.err = 0#4
  · rw [exec, execDecrec_of_ready h] at he
    cases he
    split_ifs
    · exact .inl ⟨_, rfl⟩
    · exact .inr rfl
  · rw [exec_of_halted h] at he
    cases he
    exact .inl ⟨_, rfl⟩

theorem exec_decbuf_err {src len dst : Word} (he : exec (.decbuf src len dst) s = .next t) :
    t.err = s.err ∨ t.err = 2#4 ∨ t.err = 4#4 := by
  rcases execDecbuf_cases src len dst s with
    ⟨_, he'⟩ | ⟨_, _, he'⟩ | ⟨_, _, _, he'⟩ | ⟨_, _, _, he'⟩ | ⟨_, _, _, _, he'⟩
  all_goals
    rw [exec, he'] at he
    cases he
  · exact .inl rfl
  · exact .inr (.inl rfl)
  · exact .inr (.inr rfl)
  · exact .inl rfl

/-- A request on a halted CFD, and one that ends in an exception, writes no entry (60_exceptions.md R131, R133). -/
theorem exec_obuf_of_err {i : Instr} (he : exec i s = .next t) (h : s.err ≠ 0#4 ∨ t.err ≠ 0#4) : t.obuf = s.obuf := by
  rcases exec_eq_next he with ⟨_, rfl⟩ | ⟨-, _, rfl⟩ | ⟨hs, _, _, _, _, -, -, -, rfl⟩
  · rfl
  · rfl
  · rcases h with h | h <;> exact absurd hs h

/-- Where a request changes what an entry reads as, it is a DECBUF that completed on a ready CFD, and the entry lies in
its destination range (41_buffer_decode.md R100). -/
theorem exec_read_obuf_ne {i : Instr} {j : Nat} (hwf : Memory.wf s.obuf) (he : exec i s = .next t)
    (hne : Memory.read t.obuf j ≠ Memory.read s.obuf j) :
    ∃ src len dst, i = .decbuf src len dst ∧ s.err = 0#4 ∧ t.err = 0#4 ∧
      dst.toNat ≤ j ∧ j < dst.toNat + len.toNat / 4 := by
  rcases exec_eq_next he with ⟨_, rfl⟩ | ⟨-, _, rfl⟩ | ⟨hs, src, len, dst, ob, rfl, -, hrun, rfl⟩
  · exact absurd rfl hne
  · exact absurd rfl hne
  · obtain ⟨-, -, hout⟩ := decodeRun_eq_some hwf hrun
    have hin : ¬ (j < dst.toNat + 0 ∨ dst.toNat + 0 + len.toNat / 4 ≤ j) := fun h => hne (hout j h)
    exact ⟨src, len, dst, rfl, hs, hs, by omega, by omega⟩

end RequestFrame

/-- Settles O28: `exec_frame` is what no request changes; OBUF and ERR go by the kind of request. -/
theorem requestFrame : Obligations.RequestFrame := by
  intro i s t hwf he
  obtain ⟨hib, hcap, hcap', hp, hr, -⟩ := exec_frame he
  refine ⟨fun a => by rw [hib], hcap, hcap', hp, hr, fun h => ?_, exec_obuf_of_err he, ?_⟩
  · rw [exec_of_halted h] at he
    cases he
    rfl
  · cases i with
    | decrec rlen record =>
      rcases exec_decrec_eq_next he with ⟨_, rfl⟩ | rfl
      · exact ⟨rfl, .inl rfl⟩
      · exact ⟨rfl, .inr rfl⟩
    | decbuf src len dst =>
      refine ⟨fun j hj => ?_, exec_decbuf_err he⟩
      by_contra hne
      obtain ⟨_, _, _, heq, -, -, hlo, hhi⟩ := exec_read_obuf_ne hwf he hne
      cases heq
      omega
    | stat =>
      cases he
      exact ⟨rfl, rfl⟩

/-! ### What can change each memory -/

section Writers
variable {s t : State} {m : HostMove}

theorem serve_read_obuf_ne {p : Packet} {j : Nat} (hwf : Memory.wf s.obuf) (he : serve p s = .next t)
    (hne : Memory.read t.obuf j ≠ Memory.read s.obuf j) :
    ∃ src len dst, decode p = .run (.decbuf src len dst) ∧ s.err = 0#4 ∧ t.err = 0#4 ∧
      dst.toNat ≤ j ∧ j < dst.toNat + len.toNat / 4 := by
  unfold serve at he
  split at he
  next i hd =>
    obtain ⟨src, len, dst, rfl, hrange⟩ := exec_read_obuf_ne hwf he hne
    exact ⟨src, len, dst, hd, hrange⟩
  next =>
    rcases serveIllegal_eq_next he with rfl | rfl
    · exact absurd rfl hne
    · exact absurd rfl hne

theorem hostMove_read_ibuf_ne {a : Nat} (hwf : Memory.wf s.ibuf) (he : hostMove m s = .next t)
    (hne : Memory.read t.ibuf a ≠ Memory.read s.ibuf a) :
    (∃ b, m = .writeIbuf a b ∧ Memory.read t.ibuf a = some b) ∨
    (m = .reset ∧ Memory.read t.ibuf a = none) ∨ (∃ p, m = .abandon p ∧ Memory.read t.ibuf a = none) := by
  cases m with
  | request p =>
    obtain ⟨hib, -⟩ := serve_frame he
    exact absurd (by rw [hib]) hne
  | writeIbuf x b =>
    obtain ⟨-, rfl⟩ := hostWriteIbuf_eq_next.1 he
    have hread := read_write hwf x b a
    by_cases hx : a = x
    · subst hx
      exact .inl ⟨b, rfl, hread.trans (if_pos rfl)⟩
    · exact absurd (hread.trans (if_neg hx)) hne
  | readObuf j =>
    obtain ⟨-, v, -, rfl⟩ := hostReadObuf_eq_next.1 he
    exact absurd rfl hne
  | reset => cases he; exact .inr (.inl ⟨rfl, rfl⟩)
  | abandon p => cases he; exact .inr (.inr ⟨p, rfl, rfl⟩)

theorem hostMove_read_obuf_ne {j : Nat} (hwf : Memory.wf s.obuf) (he : hostMove m s = .next t)
    (hne : Memory.read t.obuf j ≠ Memory.read s.obuf j) :
    (∃ p src len dst, m = .request p ∧ decode p = .run (.decbuf src len dst) ∧ s.err = 0#4 ∧ t.err = 0#4 ∧
      dst.toNat ≤ j ∧ j < dst.toNat + len.toNat / 4) ∨
    (m = .reset ∧ Memory.read t.obuf j = none) ∨ (∃ p, m = .abandon p ∧ Memory.read t.obuf j = none) := by
  cases m with
  | request p =>
    obtain ⟨src, len, dst, hd, hrange⟩ := serve_read_obuf_ne hwf he hne
    exact .inl ⟨p, src, len, dst, rfl, hd, hrange⟩
  | writeIbuf x b =>
    obtain ⟨-, rfl⟩ := hostWriteIbuf_eq_next.1 he
    exact absurd rfl hne
  | readObuf i =>
    obtain ⟨-, v, -, rfl⟩ := hostReadObuf_eq_next.1 he
    exact absurd rfl hne
  | reset => cases he; exact .inr (.inl ⟨rfl, rfl⟩)
  | abandon p => cases he; exact .inr (.inr ⟨p, rfl, rfl⟩)

end Writers

/-- Settles O36: a step that changes anything makes a move, and of the moves only these reach IBUF. -/
theorem onlyHostWritesInput : Obligations.OnlyHostWritesInput := by
  intro s t a hwf he hne
  rcases step_cases s with ⟨-, hstep⟩ | ⟨m, rest, hp, hstep⟩
  · rw [hstep] at he
    cases he
    exact absurd rfl hne
  · exact ⟨m, rest, hp, hostMove_read_ibuf_ne (s := { s with pending := rest }) hwf (hstep ▸ he) hne⟩

/-- Settles O37: a step that changes anything makes a move, and of the moves only these reach OBUF. -/
theorem onlyDecbufWritesOutput : Obligations.OnlyDecbufWritesOutput := by
  intro s t j hwf he hne
  rcases step_cases s with ⟨-, hstep⟩ | ⟨m, rest, hp, hstep⟩
  · rw [hstep] at he
    cases he
    exact absurd rfl hne
  · exact ⟨m, rest, hp, hostMove_read_obuf_ne (s := { s with pending := rest }) hwf (hstep ▸ he) hne⟩

/-! ### An entry and its record -/

theorem memRead_congr {ib ib' : List Host.Cell} {a a' n : Nat}
    (h : ∀ k, k < n → Memory.read ib (a + k) = Memory.read ib' (a' + k)) : memRead ib a n = memRead ib' a' n := by
  induction n generalizing a a' with
  | zero => rfl
  | succ n ih =>
    have hhead : Memory.read ib a = Memory.read ib' a' := h 0 (Nat.succ_pos n)
    have htail : memRead ib (a + 1) n = memRead ib' (a' + 1) n := ih fun k hk => by
      rw [Nat.add_right_comm, Nat.add_right_comm a']
      exact h (k + 1) (Nat.succ_lt_succ hk)
    rw [memRead, memRead, hhead, htail]

/-- Entry `DST+i` of a completed DECBUF holds the VAL of the record at `SRC+4i` (41_buffer_decode.md R100). -/
theorem read_obuf_of_decbuf_done {s t : State} {src len dst : Word} {i : Nat} (hs : s.err = 0#4)
    (hwf : Memory.wf s.obuf) (he : exec (.decbuf src len dst) s = .next t) (ht : t.err = 0#4)
    (hi : i < len.toNat / 4) :
    ∃ r, readRecord s.ibuf (src.toNat + 4 * i) = some r ∧
      Memory.read t.obuf (dst.toNat + i) = some (decodeRecord r).val := by
  obtain ⟨-, ob, hrun, rfl⟩ := execDecbuf_done hs he ht
  obtain ⟨-, hin, -⟩ := decodeRun_eq_some hwf hrun
  exact hin i (Nat.zero_le i) (by omega)

/-- Settles O19: both entries are the VAL of the record read at their place, and the two places hold one record. -/
theorem entryDependsOnlyOnItsRecord : Obligations.EntryDependsOnlyOnItsRecord := by
  intro s t s' t' src len dst src' len' dst' i i' hs hs' hwf hwf' he ht he' ht' hi hi' hbytes
  obtain ⟨r, hr, hread⟩ := read_obuf_of_decbuf_done hs hwf he ht hi
  obtain ⟨r', hr', hread'⟩ := read_obuf_of_decbuf_done hs' hwf' he' ht' hi'
  have hsame : some r = some r' := by
    rw [← hr, ← hr', readRecord, readRecord, memRead_congr (n := Config.recordBytes) hbytes]
  cases hsame
  rw [hread, hread']

/-! ### The hand-off -/

theorem run_succ_of_step {s t : State} (h : step s = .next t) (k : Nat) :
    Host.Core.run Sys2Proof.core (k + 1) s = Host.Core.run Sys2Proof.core k t := by
  have h' : Sys2Proof.core.step s = .next t := h
  simp only [Host.Core.run, h']

/-- `LOADI a, byte0, byte1, ...` leaves its bytes in IBUF from `a` on and the bytes below `a` as they were
(30_encoding.md R71, 20_memory.md R47). -/
theorem run_loadi {bs : List Byte} {s : State} {a : Nat} {rest : List HostMove} (hwf : Memory.wf s.ibuf)
    (hcap : a + bs.length ≤ s.ibufBytes.val) (hp : s.pending = loadi a bs ++ rest) (k : Nat) :
    ∃ ib, memRead ib a bs.length = some bs ∧ (∀ x, x < a → Memory.read ib x = Memory.read s.ibuf x) ∧
      Host.Core.run Sys2Proof.core (k + bs.length) s =
        Host.Core.run Sys2Proof.core k { s with ibuf := ib, pending := rest } := by
  induction bs generalizing s a with
  | nil =>
    obtain rfl : s.pending = rest := hp
    exact ⟨s.ibuf, rfl, fun _ _ => rfl, rfl⟩
  | cons b bs ih =>
    rw [List.length_cons] at hcap
    have hstep := step_writeIbuf (rest := loadi (a + 1) bs ++ rest) hp (by omega)
    obtain ⟨ib, hbytes, hbelow, hrun⟩ :=
      ih (s := { s with ibuf := Memory.write s.ibuf a b, pending := loadi (a + 1) bs ++ rest })
        (wf_write hwf a b) (by simp only; omega) rfl
    refine ⟨ib, ?_, fun x hx => ?_, (run_succ_of_step hstep _).trans hrun⟩
    · have hhead : Memory.read ib a = some b := by
        rw [hbelow a (Nat.lt_succ_self a), read_write hwf, if_pos rfl]
      rw [List.length_cons, memRead, hhead, hbytes]
    · rw [hbelow x (by omega), read_write hwf, if_neg (by omega)]

/-- The VAL of a record in its four bytes (40_record_decode.md R85, R86). -/
theorem decodeRecord_val_recordWord (b0 b1 b2 b3 : Byte) :
    (decodeRecord (recordWord b0 b1 b2 b3)).val =
      f64bits (65536 * b1.toNat + 256 * b2.toNat + b3.toNat) ((b0.toNat : Int) - 150) := by
  have hpow : (b0.toNat : Int) - 128 - 22 = b0.toNat - 150 := by omega
  simp [decodeRecord, scaledBits, multiplierScaled, mantissaReconstruction_toNat, biasedExponentExtraction,
    Config.bias, Config.mantissaScaleBits, hpow]

/-- DECBUF over one loaded record. -/
theorem exec_decbuf_one {s : State} {src dst record : Word} (hs : s.err = 0#4)
    (hsrc : src.toNat + 4 ≤ s.ibufBytes.val) (hdst : dst.toNat + 1 ≤ s.obufEntries.val)
    (hrec : readRecord s.ibuf src.toNat = some record) :
    exec (.decbuf src 4#32 dst) s = .next { s with
      obuf := Memory.write s.obuf dst.toNat (decodeRecord record).val
      responses := s.responses ++ [[0#32, 1#32]] } := by
  have hrun : decodeRun s.ibuf src.toNat dst.toNat 0 s.obuf 1 =
      some (Memory.write s.obuf dst.toNat (decodeRecord record).val) := by
    simp [decodeRun, recordAddr, hrec]
  rw [exec, execDecbuf_of_checks hs ⟨rfl, hsrc, hdst⟩, show (4#32 : Word).toNat / 4 = 1 from rfl, hrun]
  simp only [answer, setObuf_status, status_ready hs]
  rfl

theorem step_of_decode_run {s : State} {p : Packet} {i : Instr} {rest : List HostMove}
    (hp : s.pending = .request p :: rest) (hd : decode p = .run i) : step s = exec i { s with pending := rest } := by
  rw [step_of_pending hp, hostMove, serve, hd]

/-- DECBUF over one loaded record, and the host's read of its entry: the read finds the VAL of the record
(20_memory.md R50). -/
theorem run_decbuf_one_readObuf {s : State} {rest : List HostMove} {src dst record : Word} (hs : s.err = 0#4)
    (hwf : Memory.wf s.obuf) (hsrc : src.toNat + 4 ≤ s.ibufBytes.val) (hdst : dst.toNat + 1 ≤ s.obufEntries.val)
    (hrec : readRecord s.ibuf src.toNat = some record)
    (hp : s.pending = .request [0x00000002#32, src, 4#32, dst] :: .readObuf dst.toNat :: rest) :
    Host.Core.run Sys2Proof.core 2 s = .next { s with
      obuf := Memory.write s.obuf dst.toNat (decodeRecord record).val
      pending := rest
      responses := s.responses ++ [[0#32, 1#32]]
      readouts := s.readouts ++ [(dst.toNat, (decodeRecord record).val)] } := by
  have hentry := (read_write hwf dst.toNat (decodeRecord record).val dst.toNat).trans (if_pos rfl)
  have hdec := (step_of_decode_run hp (decode_eq_decbuf.2 rfl)).trans
    (exec_decbuf_one (s := { s with pending := .readObuf dst.toNat :: rest }) hs hsrc hdst hrec)
  rw [run_succ_of_step hdec 1]
  refine run_succ_of_step ?_ 0
  exact step_readObuf rfl hdst hentry

/-- Settles O35: the four writes are a LOADI of the record, DECBUF writes its VAL, and the read finds it. -/
theorem hostWritesThenReadsBack : Obligations.HostWritesThenReadsBack := by
  intro s rest src dst b0 b1 b2 b3 hs hiwf howf hsrc hdst hp
  obtain ⟨ib, hbytes, -, hload⟩ := run_loadi (bs := [b0, b1, b2, b3]) hiwf hsrc hp 2
  have hrec : readRecord ib src.toNat = some (recordWord b0 b1 b2 b3) := by
    rw [readRecord, show memRead ib src.toNat Config.recordBytes = _ from hbytes]
  exact ⟨_, hload.trans (run_decbuf_one_readObuf (rest := rest) hs howf hsrc hdst hrec rfl), hs, rfl, rfl,
    by rw [decodeRecord_val_recordWord]⟩

end Sys2Proof.Machine

/-! The statements of 30_encoding.md: decode and encode, the well-formed packets and the opcode map, when two records
have one pattern, and the response of every request. -/

namespace Sys2Proof.Machine

/-! ### Decode and encode -/

/-- Settles O1: for each request, the law of the decoder names its one packet. -/
theorem decodeIsExactlyEncode : Obligations.DecodeIsExactlyEncode := by
  intro p i
  cases i with
  | decrec rlen record => exact decode_eq_decrec
  | decbuf src len dst => exact decode_eq_decbuf
  | stat => exact decode_eq_stat

/-- A packet is illegal exactly when it is the packet of no request (30_encoding.md R73). -/
theorem decode_illegal_iff {p : Packet} : (∃ why, decode p = .illegal why) ↔ ¬ ∃ i, decode p = .run i := by
  cases decode p <;> simp

/-- Settles O4: each packet is evaluated. -/
theorem specWordsDecode : Obligations.SpecWordsDecode := by
  unfold Obligations.SpecWordsDecode
  decide

/-! ### Well-formed packets -/

theorem headerWords_eq_some {h : Word} {n : Nat} :
    headerWords h = some n ↔
      (headerOp h = 1#4 ∧ n = 2) ∨ (headerOp h = 2#4 ∧ n = 4) ∨ (headerOp h = 3#4 ∧ n = 1) := by
  simp only [headerWords, ← headerOp.eq_def]
  split_ifs with h1 h2 h3
  · simp [h1, eq_comm]
  · simp [h2, eq_comm]
  · simp [h3, eq_comm]
  · simp [h1, h2, h3]

/-- The conditions of R66 in the fields of the header: the length of R64 already says that OP is no reserved one. -/
theorem wellFormed_cons {h : Word} {ws : Packet} :
    Packet.wellFormed (h :: ws) = true ↔ headerRsv h = 0#25 ∧
      ((headerOp h = 1#4 ∧ (h :: ws).length = 2) ∨
       (headerOp h = 2#4 ∧ headerRlen h = 0#3 ∧ (h :: ws).length = 4) ∨
       (headerOp h = 3#4 ∧ headerRlen h = 0#3 ∧ (h :: ws).length = 1)) := by
  simp only [Packet.wellFormed, Packet.hasHeader, headerOpKnown, Packet.lengthFitsOp, headerReservedClear,
    ← headerOp.eq_def, ← headerRsv.eq_def, ← headerRlen.eq_def, Bool.and_eq_true, Bool.or_eq_true, beq_iff_eq,
    decide_eq_true_eq, headerWords_eq_some]
  constructor
  · rintro ⟨⟨-, ⟨hop, hlen⟩ | ⟨hop, hlen⟩ | ⟨hop, hlen⟩⟩, hrsv, hrlen⟩
    · exact ⟨hrsv, .inl ⟨hop, hlen⟩⟩
    · exact ⟨hrsv, .inr (.inl ⟨hop, by simpa [hop] using hrlen, hlen⟩)⟩
    · exact ⟨hrsv, .inr (.inr ⟨hop, by simpa [hop] using hrlen, hlen⟩)⟩
  · rintro ⟨hrsv, ⟨hop, hlen⟩ | ⟨hop, hrlen, hlen⟩ | ⟨hop, hrlen, hlen⟩⟩
    · simp [hrsv, hop, hlen]
    · simp [hrsv, hop, hrlen, hlen]
    · simp [hrsv, hop, hrlen, hlen]

/-- A header with RSV = 0 is the one built from its other two fields (30_encoding.md R63). -/
theorem eq_headerOf {h : Word} {rlen : BitVec 3} {op : BitVec 4} (hrsv : headerRsv h = 0#25)
    (hrlen : headerRlen h = rlen) (hop : headerOp h = op) : h = headerOf rlen op :=
  header_ext (by simpa using hrsv) (by simpa using hrlen) (by simpa using hop)

theorem wellFormed_encode (i : Instr) : Packet.wellFormed (encode i) = true := by
  cases i with
  | decrec rlen record => exact Laws.EncodeWellFormed.decrec rlen record
  | decbuf src len dst => exact Laws.EncodeWellFormed.decbuf src len dst
  | stat => exact Laws.EncodeWellFormed.stat

/-- A well-formed packet is the packet of some request, so by `wellFormed_encode` these are all of them. -/
theorem wellFormed_iff_encode {p : Packet} : Packet.wellFormed p = true ↔ ∃ i, p = encode i := by
  constructor
  · intro hp
    cases p with
    | nil => exact absurd hp (by decide)
    | cons h ws =>
      obtain ⟨hrsv, ⟨hop, hlen⟩ | ⟨hop, hrlen, hlen⟩ | ⟨hop, hrlen, hlen⟩⟩ := wellFormed_cons.1 hp
      · obtain ⟨record, rfl⟩ := List.length_eq_one_iff.1 (Nat.succ.inj hlen)
        exact ⟨.decrec (headerRlen h) record, by rw [encode, ← eq_headerOf hrsv rfl hop]⟩
      · obtain ⟨src, len, dst, rfl⟩ := List.length_eq_three.1 (Nat.succ.inj hlen)
        exact ⟨.decbuf src len dst, by rw [encode, ← eq_headerOf hrsv hrlen hop]⟩
      · obtain rfl := List.length_eq_zero_iff.1 (Nat.succ.inj hlen)
        exact ⟨.stat, by rw [encode, ← eq_headerOf hrsv hrlen hop]⟩
  · rintro ⟨i, rfl⟩
    exact wellFormed_encode i

theorem wellFormed_iff_run {p : Packet} : Packet.wellFormed p = true ↔ ∃ i, decode p = .run i := by
  rw [wellFormed_iff_encode]
  exact exists_congr fun i => (decodeIsExactlyEncode p i).symm

/-- Settles O2: the check is read field by field, and it holds of the packets of requests alone. -/
theorem wellFormedPacketsAreTheRequests : Obligations.WellFormedPacketsAreTheRequests := by
  refine ⟨fun p => ?_, fun p => wellFormed_iff_run, fun p => ?_, Laws.EncodeWellFormed.decrec⟩
  · cases p with
    | nil => simp [Packet.wellFormed, Packet.hasHeader]
    | cons h ws =>
      refine wellFormed_cons.trans ⟨fun hfields => ⟨h, ws, rfl, hfields⟩, ?_⟩
      rintro ⟨h', ws', heq, hfields⟩
      cases heq
      exact hfields
  · rw [decode_illegal_iff, ← wellFormed_iff_run, Bool.not_eq_true]

/-! ### The opcode map -/

theorem admits_iff {r : OpcodeRow} {h : Word} : r.admits h = true ↔ h &&& r.mask = r.pattern := beq_iff_eq

theorem eq_headerOf_iff_decrecRow {h : Word} {rlen : BitVec 3} :
    h = headerOf rlen 1#4 ↔ decrecRow.admits h = true ∧ headerRlen h = rlen := by
  rw [decrecRow_admits]
  constructor
  · rintro rfl
    simp
  · rintro ⟨⟨hop, hrsv⟩, hrlen⟩
    exact eq_headerOf hrsv hrlen hop

section WrongPacket
variable {h : Word} {ws : Packet}

/-! A header of a row with another number of words than the row's W, and a header of no row, decode to no request
(30_encoding.md R72). -/

theorem decode_decrecRow_of_length_ne (ha : decrecRow.admits h = true) (hl : (h :: ws).length ≠ 2) :
    ∃ why, decode (h :: ws) = .illegal why := by
  simp only [decode, ha, if_true]
  split
  · exact absurd rfl hl
  · exact ⟨_, rfl⟩

theorem decode_decbufRow_of_length_ne (ha : decbufRow.admits h = true) (hl : (h :: ws).length ≠ 4) :
    ∃ why, decode (h :: ws) = .illegal why := by
  have hdecrec : ¬ decrecRow.admits h = true := fun h1 => (rows_disjoint h).1 ⟨h1, ha⟩
  simp only [decode, if_neg hdecrec, ha, if_true]
  split
  · exact absurd rfl hl
  · exact ⟨_, rfl⟩

theorem decode_statRow_of_length_ne (ha : statRow.admits h = true) (hl : (h :: ws).length ≠ 1) :
    ∃ why, decode (h :: ws) = .illegal why := by
  obtain ⟨-, hdecrec, hdecbuf⟩ := rows_disjoint h
  simp only [decode, if_neg fun h1 => hdecrec ⟨h1, ha⟩, if_neg fun h1 => hdecbuf ⟨h1, ha⟩, ha, if_true]
  split
  · exact absurd rfl hl
  · exact ⟨_, rfl⟩

theorem decode_of_no_row (h1 : ¬ decrecRow.admits h = true) (h2 : ¬ decbufRow.admits h = true)
    (h3 : ¬ statRow.admits h = true) : decode (h :: ws) = .illegal (headerIllegal h) := by
  simp only [decode, if_neg h1, if_neg h2, if_neg h3]

end WrongPacket

/-- An illegal packet on a ready CFD: IllegalRequest and nothing else (60_exceptions.md R134). -/
theorem serve_of_illegal {s : State} {p : Packet} (hs : s.err = 0#4) (hp : ∃ why, decode p = .illegal why) :
    serve p s = .next { s with err := 3#4, responses := s.responses ++ [[3#32]] } := by
  obtain ⟨why, hd⟩ := hp
  rw [serve, hd]
  exact whenReady_of_ready hs

/-- Settles O3: the laws of the decoder with each header said by its row, and IllegalRequest for what is left. -/
theorem opcodeMapByMaskAndMatch : Obligations.OpcodeMapByMaskAndMatch := by
  refine ⟨fun p rlen record => ?_, fun p src len dst => ?_, fun p => ?_, fun s w0 ws hs hw => ?_, fun s hs => ?_⟩
  · rw [decode_eq_decrec]
    constructor
    · intro hp
      obtain ⟨ha, hrlen⟩ := eq_headerOf_iff_decrecRow.1 (rfl : headerOf rlen 1#4 = headerOf rlen 1#4)
      exact ⟨_, hp, admits_iff.1 ha, hrlen⟩
    · rintro ⟨w0, rfl, ha, hrlen⟩
      rw [← eq_headerOf_iff_decrecRow.2 ⟨admits_iff.2 ha, hrlen⟩]
  · rw [decode_eq_decbuf]
    constructor
    · exact fun hp => ⟨_, hp, admits_iff.1 (decbufRow_admits.2 rfl)⟩
    · rintro ⟨w0, rfl, ha⟩
      rw [← decbufRow_admits.1 (admits_iff.2 ha)]
  · rw [decode_eq_stat]
    constructor
    · exact fun hp => ⟨_, hp, admits_iff.1 (statRow_admits.2 rfl)⟩
    · rintro ⟨w0, rfl, ha⟩
      rw [← statRow_admits.1 (admits_iff.2 ha)]
  · refine serve_of_illegal hs ?_
    rcases hw with ⟨ha, hl⟩ | ⟨ha, hl⟩ | ⟨ha, hl⟩ | ⟨h1, h2, h3⟩
    · exact decode_decrecRow_of_length_ne (admits_iff.2 ha) hl
    · exact decode_decbufRow_of_length_ne (admits_iff.2 ha) hl
    · exact decode_statRow_of_length_ne (admits_iff.2 ha) hl
    · exact ⟨_, decode_of_no_row (mt admits_iff.1 h1) (mt admits_iff.1 h2) (mt admits_iff.1 h3)⟩
  · exact serve_of_illegal hs ⟨_, rfl⟩

/-! ### When two records have one pattern -/

theorem msb_mul_two_pow {m : Nat} (hm : m ≠ 0) (d : Nat) : msb (m * 2 ^ d) = msb m + d := by
  obtain ⟨hlo, hhi⟩ := msb_bounds hm
  refine msb_eq ?_ ?_
  · rw [pow_add]
    exact Nat.mul_le_mul_right _ hlo
  · rw [Nat.add_right_comm, pow_add]
    exact Nat.mul_lt_mul_of_pos_right hhi (Nat.two_pow_pos d)

/-- The pattern does not depend on how a number is split into mantissa and power: zeros below the mantissa can be moved
into the exponent (40_record_decode.md R84). -/
theorem f64bits_mul_two_pow {m d : Nat} (hm : msb m + d ≤ 52) (k : Int) :
    f64bits (m * 2 ^ d) k = f64bits m (k + d) := by
  by_cases h0 : m = 0
  · simp [h0]
  · have hexp : (1023 : Int) + (msb m + d : Nat) + k = 1023 + msb m + (k + d) := by omega
    have hfrac : (m * 2 ^ d - 2 ^ (msb m + d)) * 2 ^ (52 - (msb m + d)) = (m - 2 ^ msb m) * 2 ^ (52 - msb m) := by
      rw [pow_add, ← Nat.sub_mul, mul_assoc, ← pow_add]
      congr 2
      omega
    rw [f64bits, f64bits, if_neg h0, if_neg (by simp [h0]), msb_mul_two_pow h0, hexp, hfrac]

/-- Two ways to write one number have one pattern, the greater exponent moved down to the smaller. -/
theorem f64bits_eq_of_le {m m' a b : Nat} (hm : m < 2 ^ 24) (hab : a ≤ b) (h : m * 2 ^ a = m' * 2 ^ b) (k : Int) :
    f64bits m (a - k) = f64bits m' (b - k) := by
  obtain ⟨d, rfl⟩ := Nat.exists_eq_add_of_le hab
  have hmd : m = m' * 2 ^ d := by
    refine Nat.eq_of_mul_eq_mul_right (Nat.two_pow_pos a) ?_
    rw [h, pow_add]
    ring
  by_cases h0 : m' = 0
  · simp [hmd, h0]
  · have hp : msb m' + d < 24 := by
      rw [← msb_mul_two_pow h0, ← hmd]
      exact msb_lt (by simp [hmd, h0]) hm
    rw [hmd, f64bits_mul_two_pow (by omega)]
    congr 1
    push_cast
    ring

/-- VAL stands for exactly m * 2^(int(b0) - 150) (40_record_decode.md R83). -/
theorem f64value_val (r : Word) :
    f64value (decodeRecord r).val =
      some (((r.extractLsb' 0 24).toNat : ℚ) * (2 : ℚ) ^ (((r.extractLsb' 24 8).toNat : Int) - 150)) := by
  have hm := (r.extractLsb' 0 24).isLt
  have hb := (r.extractLsb' 24 8).isLt
  rw [decodeRecord_eq]
  refine f64bits_exact hm fun h0 => ?_
  have hp := msb_lt h0 hm
  omega

/-- Settles O13: VAL stands for the number exactly, and a number has one pattern however it is split. -/
theorem samePatternIffSameValue : Obligations.SamePatternIffSameValue := by
  intro r r'
  constructor
  · intro h
    have hval := f64value_val r
    rw [h, f64value_val r', Option.some.injEq, zpow_sub₀ two_ne_zero, zpow_sub₀ two_ne_zero, zpow_natCast,
      zpow_natCast, ← mul_div_assoc, ← mul_div_assoc, div_left_inj' (by positivity)] at hval
    exact_mod_cast hval.symm
  · intro h
    simp only [decodeRecord_eq]
    rcases Nat.le_total (r.extractLsb' 24 8).toNat (r'.extractLsb' 24 8).toNat with hle | hle
    · exact f64bits_eq_of_le (r.extractLsb' 0 24).isLt hle h _
    · exact (f64bits_eq_of_le (r'.extractLsb' 0 24).isLt hle h.symm _).symm

/-! ### The response of every request -/

/-- The words a request's response has after STATUS when the request completes (30_encoding.md R67). -/
def completedWords : Instr → Packet
  | .decrec _ record => decodedWords (decodeRecord record)
  | .decbuf _ len _ => [BitVec.ofNat 32 (len.toNat / 4)]
  | .stat => []

/-- The words that follow STATUS in the response of a request that leaves the state `t`. -/
def wordsAfterStatus (i : Instr) (t : State) : Packet := if t.err = 0#4 then completedWords i else []

theorem wordsAfterStatus_of_ready {i : Instr} {t : State} (h : t.err = 0#4) :
    wordsAfterStatus i t = completedWords i := if_pos h

theorem wordsAfterStatus_of_halted {i : Instr} {t : State} (h : t.err ≠ 0#4) : wordsAfterStatus i t = [] := if_neg h

/-- A ready CFD that answers a request with its words has completed it. -/
theorem answer_completedWords {s : State} (h : s.err = 0#4) (i : Instr) :
    (answer (completedWords i) s).responses =
      s.responses ++ [statusWord s :: wordsAfterStatus i (answer (completedWords i) s)] := by
  rw [wordsAfterStatus_of_ready (t := answer _ s) h, answer_responses]

/-- A request answers once: STATUS as it stands after it, then its words if it completed (30_encoding.md R67). -/
theorem exec_responses {i : Instr} {s t : State} (he : exec i s = .next t) :
    t.responses = s.responses ++ [statusWord t :: wordsAfterStatus i t] := by
  by_cases h : s.err = 0#4
  · cases i with
    | decrec rlen record =>
      rw [exec, execDecrec_of_ready h] at he
      cases he
      split_ifs
      · exact answer_completedWords h (.decrec rlen record)
      · rfl
    | decbuf src len dst =>
      rcases execDecbuf_cases src len dst s with
        ⟨h', _⟩ | ⟨_, _, he'⟩ | ⟨_, _, _, he'⟩ | ⟨_, _, _, he'⟩ | ⟨_, _, ob, _, he'⟩
      · exact absurd h h'
      all_goals
        rw [exec, he'] at he
        cases he
      · rfl
      · rfl
      · exact answer_completedWords (s := setObuf ob s) h (.decbuf src len dst)
    | stat =>
      cases he
      exact answer_completedWords h .stat
  · rw [exec_of_halted h] at he
    cases he
    rw [wordsAfterStatus_of_halted (t := answer _ s) h]
    rfl

/-- The response to an illegal packet is STATUS alone, and the CFD is halted after it. -/
theorem serveIllegal_responses {s t : State} (he : serveIllegal s = .next t) :
    t.err ≠ 0#4 ∧ t.responses = s.responses ++ [[statusWord t]] := by
  by_cases h : s.err = 0#4
  · rw [serveIllegal, whenReady_of_ready h] at he
    cases he
    exact ⟨raise_err_ne _ _, rfl⟩
  · rw [serveIllegal, whenReady_of_halted h] at he
    cases he
    exact ⟨h, rfl⟩

theorem serve_responses {p : Packet} {s t : State} (he : serve p s = .next t) :
    ∃ rest, t.responses = s.responses ++ [statusWord t :: rest] ∧ (t.err ≠ 0#4 → rest = []) ∧
      ∀ i, decode p = .run i → rest = wordsAfterStatus i t := by
  unfold serve at he
  split at he
  next i hd =>
    refine ⟨_, exec_responses he, wordsAfterStatus_of_halted, fun j hj => ?_⟩
    cases hd.symm.trans hj
    rfl
  next why hd =>
    obtain ⟨-, hw⟩ := serveIllegal_responses he
    exact ⟨[], hw, fun _ => rfl, fun j hj => nomatch hd.symm.trans hj⟩

/-- The words of a DECREC response in the terms of 40_record_decode.md R85 and R86. -/
theorem decodedWords_decodeRecord (record : Word) :
    decodedWords (decodeRecord record) =
      let val := f64bits (record.extractLsb' 0 24).toNat (((record.extractLsb' 24 8).toNat : Int) - 150)
      let raw := f64bits (record.extractLsb' 0 24).toNat (((record.extractLsb' 24 8).toNat : Int) - 128)
      [(record.extractLsb' 24 8 ^^^ 0x80#8) ++ record.extractLsb' 0 24,
        val.extractLsb' 0 32, val.extractLsb' 32 32, raw.extractLsb' 0 32, raw.extractLsb' 32 32] := by
  rw [decodeRecord_eq]
  rfl

/-- Settles O27: the words after STATUS are those of the decoded request if ERR is 0 after it, and none otherwise. -/
theorem oneResponsePerRequest : Obligations.OneResponsePerRequest := by
  intro s t p he
  obtain ⟨rest, hw, hhalted, hrun⟩ := serve_responses he
  refine ⟨rest, hw, statusWord_eq_zero_iff, hhalted, fun rlen record ht hd => ?_, fun src len dst ht hd => ?_,
    fun hd => ?_⟩
  · rw [hrun _ hd, wordsAfterStatus_of_ready ht]
    exact decodedWords_decodeRecord record
  · rw [hrun _ hd, wordsAfterStatus_of_ready ht]
    rfl
  · rw [hrun _ hd]
    exact ite_self []

/-! ### Every packet has a meaning -/

theorem exec_ne_refused (i : Instr) (s : State) (r : Refusal) : exec i s ≠ .refused r := by
  cases i with
  | decrec rlen record =>
    by_cases h : s.err = 0#4
    · rw [exec, execDecrec_of_ready h]
      exact nofun
    · rw [exec_of_halted h]
      exact nofun
  | decbuf src len dst =>
    rcases execDecbuf_cases src len dst s with
      ⟨_, he⟩ | ⟨_, _, he⟩ | ⟨_, _, _, he⟩ | ⟨_, _, _, he⟩ | ⟨_, _, _, _, he⟩
    all_goals
      rw [exec, he]
      exact nofun
  | stat => exact nofun

theorem serveIllegal_ne_refused (s : State) (r : Refusal) : serveIllegal s ≠ .refused r := by
  by_cases h : s.err = 0#4
  · rw [serveIllegal, whenReady_of_ready h]
    exact nofun
  · rw [serveIllegal, whenReady_of_halted h]
    exact nofun

/-- Settles O41: a packet runs a request or is illegal, and neither is ever refused. -/
theorem noRequestRefused : Obligations.NoRequestRefused := by
  intro s p r
  unfold serve
  split
  · exact exec_ne_refused _ s r
  · exact serveIllegal_ne_refused s r

/-- Settles O39: the step serves the packet it takes off the queue. -/
theorem stepRunsDecodedRequest : Obligations.StepRunsDecodedRequest := fun _ _ _ _ hp hd => step_of_decode_run hp hd

end Sys2Proof.Machine

/-! The statements of 40_record_decode.md: the three sub-units, the binary64 patterns they feed, the datapath on a
record, and DECREC. -/

namespace Sys2Proof.Machine

/-! ### biased_exponent_extraction -/

theorem biasedExponentExtraction_eq (b0 : Byte) : biasedExponentExtraction b0 = (b0.toNat : Int) - 128 := rfl

/-- Flipping the sign bit of a byte takes 128 from it, modulo 256. -/
theorem exponentByte_eq_sub : ∀ b0 : Byte, exponentByte b0 = b0 - 0x80#8 := by decide

/-- EXP read as an s8 is e (40_record_decode.md R80). -/
theorem toInt_exponentByte (b0 : Byte) : (exponentByte b0).toInt = biasedExponentExtraction b0 := by
  have hb := b0.isLt
  rw [exponentByte_eq_sub, biasedExponentExtraction_eq, BitVec.toInt_eq_toNat_cond, BitVec.toNat_sub,
    BitVec.toNat_ofNat]
  split_ifs <;> omega

theorem biasedExponentExtraction_inj {b c : Byte} (h : biasedExponentExtraction b = biasedExponentExtraction c) :
    b = c := by
  simp only [biasedExponentExtraction_eq] at h
  exact BitVec.eq_of_toNat_eq (by omega)

/-- The byte `e + 128` gives e. -/
theorem biasedExponentExtraction_ofInt {e : Int} (hlo : -128 ≤ e) (hhi : e ≤ 127) :
    biasedExponentExtraction (BitVec.ofInt 8 (e + 128)) = e := by
  rw [biasedExponentExtraction_eq, BitVec.toNat_ofInt]
  omega

/-- Settles O5: e is the byte less 128, so `e + 128` is the one byte that gives it. -/
theorem biasedExponentExtraction_spec : Obligations.BiasedExponentExtraction := by
  refine ⟨fun b0 => ?_, fun e hlo hhi => ?_⟩
  · have hb := b0.isLt
    have he := biasedExponentExtraction_eq b0
    exact ⟨he, by omega, by omega, rfl, toInt_exponentByte b0⟩
  · have he := biasedExponentExtraction_ofInt hlo hhi
    exact ⟨_, he, fun b hb => biasedExponentExtraction_inj (hb.trans he.symm)⟩

/-! ### 24bit_mantissa_reconstruction -/

theorem mantissaReconstruction_eq_extractLsb' (b0 b1 b2 b3 : Byte) :
    mantissaReconstruction b1 b2 b3 = (recordWord b0 b1 b2 b3).extractLsb' 0 24 := by
  simpa using mantissa_of_record (recordWord b0 b1 b2 b3)

/-- The bytes of a mantissa are the digits of its number in base 256. -/
theorem mantissaReconstruction_inj {b1 b2 b3 c1 c2 c3 : Byte}
    (h : mantissaReconstruction c1 c2 c3 = mantissaReconstruction b1 b2 b3) : c1 = b1 ∧ c2 = b2 ∧ c3 = b3 := by
  have hnat := congrArg BitVec.toNat h
  rw [mantissaReconstruction_toNat, mantissaReconstruction_toNat] at hnat
  have hb2 := b2.isLt
  have hb3 := b3.isLt
  have hc2 := c2.isLt
  have hc3 := c3.isLt
  refine ⟨BitVec.eq_of_toNat_eq ?_, BitVec.eq_of_toNat_eq ?_, BitVec.eq_of_toNat_eq ?_⟩ <;> omega

/-- Every u24 is the mantissa of the record word that holds it. -/
theorem mantissaReconstruction_of_setWidth (m : Mantissa) :
    mantissaReconstruction (recordB1 (m.setWidth 32)) (recordB2 (m.setWidth 32)) (recordB3 (m.setWidth 32)) = m := by
  rw [mantissa_of_record, ← BitVec.setWidth_eq_extractLsb' (by decide), BitVec.setWidth_setWidth_of_le _ (by decide),
    BitVec.setWidth_eq]

/-- Settles O6: the bytes of the record word with mantissa m give m, and no other bytes do. -/
theorem mantissaReconstruction_spec : Obligations.MantissaReconstruction := by
  refine ⟨mantissaReconstruction_toNat, mantissaReconstruction_eq_extractLsb', fun m => ?_⟩
  have hm := mantissaReconstruction_of_setWidth m
  exact ⟨_, _, _, hm, fun c1 c2 c3 hc => mantissaReconstruction_inj (hc.trans hm.symm)⟩

/-! ### scaled_power_of_two_multiplier -/

theorem scaledValue_raw (m : Mantissa) (e : Int) : scaledValue (multiplierRaw m e) = (m.toNat : ℚ) * 2 ^ e := rfl

theorem scaledValue_scaled (m : Mantissa) (e : Int) :
    scaledValue (multiplierScaled m e) = (m.toNat : ℚ) * 2 ^ (e - 22) := rfl

/-- A nonzero u24 is between 1 and 2^24 - 1. -/
theorem mantissa_bounds {m : Mantissa} (h : m ≠ 0#24) : (1 : ℚ) ≤ m.toNat ∧ (m.toNat : ℚ) ≤ 2 ^ 24 - 1 := by
  have hpos : 1 ≤ m.toNat := Nat.pos_of_ne_zero fun h0 => h (BitVec.eq_of_toNat_eq h0)
  have hlt : m.toNat + 1 ≤ 2 ^ 24 := m.isLt
  exact ⟨by exact_mod_cast hpos, le_sub_iff_add_le.2 (by exact_mod_cast hlt)⟩

/-- Settles O7: `scaled` has 22 less in the exponent, and its bounds are the product of those of m and of the power. -/
theorem multiplierIsExact : Obligations.MultiplierIsExact := by
  intro m e
  refine ⟨scaledValue_raw m e, ?_, scaledValue_scaled m e, ?_, fun hm hlo hhi => ?_⟩
  · rw [scaledValue_raw, scaledValue_scaled, zpow_sub₀ two_ne_zero, mul_div_assoc]
    norm_cast
  · rintro rfl
    simp [scaledValue_raw, scaledValue_scaled]
  · obtain ⟨hm1, hm2⟩ := mantissa_bounds hm
    have hp1 : (2 : ℚ) ^ (-150 : Int) ≤ 2 ^ (e - 22) := zpow_le_zpow_right₀ one_le_two (by omega)
    have hp2 : (2 : ℚ) ^ (e - 22) ≤ 2 ^ (105 : Int) := zpow_le_zpow_right₀ one_le_two (by omega)
    rw [scaledValue_scaled]
    exact ⟨hp1.trans (le_mul_of_one_le_left (by positivity) hm1),
      mul_le_mul hm2 hp2 (by positivity) (by norm_num)⟩

/-! ### The binary64 patterns -/

/-- Settles O8: the bounds on p say that it is the place of the most significant bit, and that m is a u24. -/
theorem f64BitsIsExact : Obligations.F64BitsIsExact := by
  refine ⟨fun k => ⟨f64bits_zero k, by simp [f64value]⟩, fun m p k hlo hhi hp hk1 hk2 => ?_⟩
  obtain rfl := msb_eq hlo hhi
  have hm0 : m ≠ 0 := ((Nat.two_pow_pos _).trans_le hlo).ne'
  have hm : m < 2 ^ 24 := hhi.trans_le (Nat.pow_le_pow_right two_pos (by omega))
  obtain ⟨e, he⟩ := Int.eq_ofNat_of_zero_le (show (0 : Int) ≤ 1023 + msb m + k by omega)
  obtain ⟨hsign, hexpo, hfrac⟩ := f64bits_fields hm0 hm he (by omega)
  exact ⟨hsign, by rw [hexpo, he], hfrac, f64bits_exact hm fun _ => ⟨hk1, hk2⟩⟩

/-- A u24 times 2^k is a number `f64bits` holds exactly, in a range of k that covers every VAL and RAW
(40_record_decode.md R83). -/
theorem f64value_f64bits {m : Nat} {k : Int} (hm : m < 2 ^ 24) (hlo : -1022 ≤ k) (hhi : k ≤ 1000) :
    f64value (f64bits m k) = some ((m : ℚ) * (2 : ℚ) ^ k) := by
  refine f64bits_exact hm fun h0 => ?_
  have hp := msb_lt h0 hm
  omega

/-- RAW stands for exactly m * 2^(int(b0) - 128) (40_record_decode.md R83). -/
theorem f64value_raw (r : Word) :
    f64value (decodeRecord r).raw =
      some (((r.extractLsb' 0 24).toNat : ℚ) * (2 : ℚ) ^ (((r.extractLsb' 24 8).toNat : Int) - 128)) := by
  have hb := (r.extractLsb' 24 8).isLt
  rw [decodeRecord_eq]
  exact f64value_f64bits (r.extractLsb' 0 24).isLt (by omega) (by omega)

/-- Settles O9: both exponent fields are those of normal numbers for every record. -/
theorem decodedValuesAreExact : Obligations.DecodedValuesAreExact := fun r => ⟨f64value_val r, f64value_raw r⟩

/-- The CFD outputs no negative number (40_record_decode.md R85). -/
theorem f64sign_f64bits (m : Nat) (k : Int) : f64sign (f64bits m k) = 0#1 := by
  rw [f64bits]
  split_ifs
  · rfl
  · exact f64sign_pack _ _ _

/-- Settles O10: p is at most 23 and int(b0) at most 255, so no exponent field is truncated. -/
theorem outputPatternsAreNormal : Obligations.OutputPatternsAreNormal := by
  intro record p m b0
  have hm : m < 2 ^ 24 := (record.extractLsb' 0 24).isLt
  have hb : b0 < 2 ^ 8 := (record.extractLsb' 24 8).isLt
  have hval : (decodeRecord record).val = f64bits m ((b0 : Int) - 150) := by rw [decodeRecord_eq]
  have hraw : (decodeRecord record).raw = f64bits m ((b0 : Int) - 128) := by rw [decodeRecord_eq]
  rw [hval, hraw]
  refine ⟨rfl, rfl, f64sign_f64bits _ _, f64sign_f64bits _ _, fun h0 => ?_, fun hlo hhi => ?_⟩
  · rw [h0]
    exact ⟨f64bits_zero _, f64bits_zero _⟩
  · obtain rfl := msb_eq hlo hhi
    have hm0 : m ≠ 0 := ((Nat.two_pow_pos _).trans_le hlo).ne'
    have hp := msb_lt hm0 hm
    obtain ⟨-, hexpoVal, -⟩ := f64bits_fields (k := b0 - 150) (e := msb m + b0 + 873) hm0 hm (by omega) (by omega)
    obtain ⟨-, hexpoRaw, -⟩ := f64bits_fields (k := b0 - 128) (e := msb m + b0 + 895) hm0 hm (by omega) (by omega)
    exact ⟨hexpoVal, by omega, by omega, hexpoRaw, by omega, by omega⟩

/-! ### The datapath on a record -/

/-- The RAW of a record in its four bytes (40_record_decode.md R86). -/
theorem decodeRecord_raw_recordWord (b0 b1 b2 b3 : Byte) :
    (decodeRecord (recordWord b0 b1 b2 b3)).raw =
      f64bits (65536 * b1.toNat + 256 * b2.toNat + b3.toNat) ((b0.toNat : Int) - 128) := by
  simp [decodeRecord, scaledBits, multiplierRaw, mantissaReconstruction_toNat, biasedExponentExtraction_eq]

/-- Settles O11: each output is its sub-unit on the bytes of the record word. -/
theorem datapathOfRecordBytes : Obligations.DatapathOfRecordBytes := by
  intro b0 b1 b2 b3 e m
  refine ⟨?_, ?_, ?_, decodeRecord_raw_recordWord b0 b1 b2 b3⟩
  · simp [decodeRecord, exponentByte]
  · simp [decodeRecord, mantissaReconstruction_toNat, m]
  · rw [decodeRecord_val_recordWord]
    exact congrArg _ (by omega)

/-- One more in the exponent doubles the number (40_record_decode.md R87). -/
theorem f64value_f64bits_succ {m : Nat} {k : Int} (hm : m < 2 ^ 24) (hlo : -1022 ≤ k) (hhi : k < 1000) :
    ∃ x : ℚ, f64value (f64bits m k) = some x ∧ f64value (f64bits m (k + 1)) = some (2 * x) := by
  refine ⟨_, f64value_f64bits hm hlo hhi.le, ?_⟩
  rw [f64value_f64bits hm (by omega) hhi, zpow_add_one₀ two_ne_zero, mul_comm _ 2, mul_left_comm]

/-- Settles O12: the two records have one mantissa, and exponents that differ by one. -/
theorem nextExponentDoubles : Obligations.NextExponentDoubles := by
  intro b0 b1 b2 b3 hb0 d d'
  have hm : 65536 * b1.toNat + 256 * b2.toNat + b3.toNat < 2 ^ 24 := by
    rw [← mantissaReconstruction_toNat]
    exact (mantissaReconstruction b1 b2 b3).isLt
  have hzero : 65536 * b1.toNat + 256 * b2.toNat + b3.toNat = 0 ↔ b1 = 0#8 ∧ b2 = 0#8 ∧ b3 = 0#8 := by
    simp [← BitVec.toNat_inj, and_assoc]
  have hnext : (b0 + 1#8).toNat = b0.toNat + 1 := by
    rw [BitVec.toNat_add, BitVec.toNat_ofNat]
    omega
  have hval : d.val = _ := decodeRecord_val_recordWord b0 b1 b2 b3
  have hraw : d.raw = _ := decodeRecord_raw_recordWord b0 b1 b2 b3
  have hval' : d'.val = _ := decodeRecord_val_recordWord (b0 + 1#8) b1 b2 b3
  have hraw' : d'.raw = _ := decodeRecord_raw_recordWord (b0 + 1#8) b1 b2 b3
  rw [hnext, Nat.cast_succ, add_sub_right_comm] at hval' hraw'
  rw [hval, hval', hraw, hraw', ← hzero]
  refine ⟨f64value_f64bits_succ hm (by omega) (by omega), f64value_f64bits_succ hm (by omega) (by omega),
    fun h0 => ?_, fun h0 => ?_⟩
  · have hp := msb_lt h0 hm
    exact ⟨f64bits_succ h0 hm (by omega) (by omega), f64bits_succ h0 hm (by omega) (by omega)⟩
  · rw [h0]
    exact ⟨f64bits_zero _, f64bits_zero _, f64bits_zero _, f64bits_zero _⟩

/-! ### DECREC -/

/-- Settles O14: the packets are those of the DECREC row, and RLEN alone decides between the response and the
exception. -/
theorem decrecRequest : Obligations.DecrecRequest := by
  refine ⟨opcodeMapByMaskAndMatch.1, fun s record hs => ?_, fun s rlen record hs hrlen => ?_⟩
  · rw [exec, execDecrec_of_ready hs, if_pos rfl, answer, status_ready hs, decodedWords_decodeRecord]
    rfl
  · rw [exec, execDecrec_of_ready hs, if_neg hrlen]
    rfl

end Sys2Proof.Machine

/-! The statements of 41_buffer_decode.md: when a DECBUF completes and when it is a model fault, its entries against
DECREC, and a buffer decoded in two parts. -/

namespace Sys2Proof.Machine

/-! ### When a DECBUF completes, and when it is a model fault -/

section Outcome
variable {s : State} {src len dst : Word} {ob : List (Nat × Entry)}

/-- What a DECBUF does when its checks pass and its loop runs to its end, the converse of `execDecbuf_done`
(41_buffer_decode.md R100). -/
theorem exec_decbuf_of_decodeRun (hs : s.err = 0#4) (hc : DecbufChecks src len dst s)
    (hrun : decodeRun s.ibuf src.toNat dst.toNat 0 s.obuf (len.toNat / 4) = some ob) :
    exec (.decbuf src len dst) s = .next
      { s with obuf := ob, responses := s.responses ++ [[0#32, BitVec.ofNat 32 (len.toNat / 4)]] } := by
  rw [exec, execDecbuf_of_checks hs hc, hrun]
  simp only [answer, setObuf_status, status_ready hs]
  rfl

/-- The loop runs to its end over a loaded buffer (70_reset_and_hazards.md R152). -/
theorem exists_decodeRun_of_loaded {a n d : Nat} (hn : n % 4 = 0) (hload : Loaded s a n) :
    ∃ ob', decodeRun s.ibuf a d 0 ob (n / 4) = some ob' := by
  refine Option.ne_none_iff_exists'.1 fun hnone => ?_
  obtain ⟨k, hk, hunwritten⟩ := (decodeRun_none_iff_unwritten hn).1 hnone
  simpa [hunwritten] using hload k hk

theorem exec_decbuf_eq_fault {f : Fault} : exec (.decbuf src len dst) s = .fault f ↔
    f = .unwrittenInput ∧ s.err = 0#4 ∧ DecbufChecks src len dst s ∧
      decodeRun s.ibuf src.toNat dst.toNat 0 s.obuf (len.toNat / 4) = none := by
  constructor
  · intro he
    rcases execDecbuf_cases src len dst s with
      ⟨_, he'⟩ | ⟨_, _, he'⟩ | ⟨_, _, _, he'⟩ | ⟨hs, hc, hrun, he'⟩ | ⟨_, _, _, _, he'⟩
    all_goals
      rw [exec, he'] at he
      cases he
    exact ⟨rfl, hs, hc, hrun⟩
  · rintro ⟨rfl, hs, hc, hrun⟩
    rw [exec, execDecbuf_of_checks hs hc, hrun]

end Outcome

/-- Settles O16: the loop over no records leaves OBUF as it is. -/
theorem emptyBufferWritesNothing : Obligations.EmptyBufferWritesNothing :=
  fun _ _ _ hs hsrc hdst => exec_decbuf_of_decodeRun hs ⟨rfl, hsrc, hdst⟩ rfl

/-- Settles O15: a failing check names its exception, and past the checks the loop runs over the loaded buffer. -/
theorem decbufRequest : Obligations.DecbufRequest := by
  refine ⟨fun _ _ _ _ => decode_eq_decbuf, fun _ _ _ _ hs hlen => execDecbuf_badLength hs hlen,
    fun _ _ _ _ hs hlen hrange => execDecbuf_badRange hs hlen hrange,
    fun s src len dst hs hlen hsrc hdst hwf hload => ?_⟩
  obtain ⟨ob, hrun⟩ := exists_decodeRun_of_loaded (ob := s.obuf) (d := dst.toNat) hlen hload
  obtain ⟨-, hin, hout⟩ := decodeRun_eq_some hwf hrun
  refine ⟨ob, exec_decbuf_of_decodeRun hs ⟨hlen, hsrc, hdst⟩ hrun, fun i b0 b1 b2 b3 hi h0 h1 h2 h3 => ?_, hout⟩
  obtain ⟨r, hr, hread⟩ := hin i (Nat.zero_le i) (by omega)
  have hbytes := readRecord_eq_some.2 ⟨b0, b1, b2, b3, rfl, h0, h1, h2, h3⟩
  cases hr.symm.trans hbytes
  rw [hread, decodeRecord_val_recordWord]

/-- Settles O17: past the checks the loop stops exactly when a byte of the buffer is unwritten. -/
theorem decbufUnwrittenInput : Obligations.DecbufUnwrittenInput := by
  intro s src len dst
  rw [exec_decbuf_eq_fault]
  constructor
  · rintro ⟨-, hs, ⟨hlen, hsrc, hdst⟩, hrun⟩
    exact ⟨hs, hlen, hsrc, hdst, (decodeRun_none_iff_unwritten hlen).1 hrun⟩
  · rintro ⟨hs, hlen, hsrc, hdst, hunwritten⟩
    exact ⟨rfl, hs, ⟨hlen, hsrc, hdst⟩, (decodeRun_none_iff_unwritten hlen).2 hunwritten⟩

/-! ### DECBUF against DECREC -/

/-- DECREC of a whole record on a ready CFD, in the words of the datapath (40_record_decode.md R90). -/
theorem exec_decrec_four {s : State} (hs : s.err = 0#4) (record : Word) :
    exec (.decrec 4#3 record) s = .next
      { s with responses := s.responses ++ [0#32 :: decodedWords (decodeRecord record)] } := by
  rw [exec, execDecrec_of_ready hs, if_pos rfl, answer, status_ready hs]
  rfl

/-- VAL of a record stands for exactly m * 2^(int(b0) - 150), in its four bytes (40_record_decode.md R83). -/
theorem f64value_val_recordWord (b0 b1 b2 b3 : Byte) :
    f64value (decodeRecord (recordWord b0 b1 b2 b3)).val =
      some (((65536 * b1.toNat + 256 * b2.toNat + b3.toNat : Nat) : ℚ) * (2 : ℚ) ^ ((b0.toNat : Int) - 150)) := by
  have hm := (mantissaReconstruction b1 b2 b3).isLt
  rw [mantissaReconstruction_toNat] at hm
  rw [decodeRecord_val_recordWord, f64value_f64bits hm (by omega) (by omega)]

/-- Settles O18: both requests send the record read at `SRC+4i` through the one datapath. -/
theorem decbufAgreesWithDecrec : Obligations.DecbufAgreesWithDecrec := by
  intro s t src len dst hs hwf he ht
  have hresponse : t.responses = s.responses ++ [[0#32, BitVec.ofNat 32 (len.toNat / 4)]] := by
    obtain ⟨-, ob, -, rfl⟩ := execDecbuf_done hs he ht
    rfl
  refine ⟨hresponse, fun i hi => ?_⟩
  obtain ⟨r, hr, hread⟩ := read_obuf_of_decbuf_done hs hwf he ht hi
  obtain ⟨b0, b1, b2, b3, rfl, h0, h1, h2, h3⟩ := readRecord_eq_some.1 hr
  exact ⟨b0, b1, b2, b3, _, _, _, _, h0, h1, h2, h3, exec_decrec_four hs _, hread, f64value_val_recordWord b0 b1 b2 b3⟩

/-! ### A buffer in two parts -/

/-- A run over `n + m` records is a run over the first `n` and, from the OBUF that leaves, one over the `m` records that
follow, with the operands moved on (41_buffer_decode.md R103). -/
theorem decodeRun_add_eq_some {ib : List Host.Cell} {a d n m : Nat} {ob ob' : List (Nat × Entry)} :
    decodeRun ib a d 0 ob (n + m) = some ob' ↔
      ∃ mid, decodeRun ib a d 0 ob n = some mid ∧ decodeRun ib (a + 4 * n) (d + n) 0 mid m = some ob' := by
  simp only [decodeRun_add, decodeRun_shift, Option.bind_eq_some_iff]

/-- Settles O20: the loop over the whole buffer is the loops over its two parts, and each part passes the checks. -/
theorem splitBufferSameOutput : Obligations.SplitBufferSameOutput := by
  intro s t src len dst len1 len2 src2 dst2 hs hlen hlen1 hsrc2 hdst2 he ht
  obtain ⟨⟨hmul, hsrc, hdst⟩, ob, hrun, rfl⟩ := execDecbuf_done hs he ht
  have hcount : len.toNat / 4 = len1.toNat / 4 + len2.toNat / 4 := by omega
  have hstart : src2.toNat = src.toNat + 4 * (len1.toNat / 4) := by omega
  rw [hcount] at hrun hdst
  obtain ⟨mid, hrun1, hrun2⟩ := decodeRun_add_eq_some.1 hrun
  rw [← hstart, ← hdst2] at hrun2
  have hc1 : DecbufChecks src len1 dst s := ⟨hlen1, by omega, by omega⟩
  have hc2 : DecbufChecks src2 len2 dst2 s := ⟨by omega, by omega, by omega⟩
  exact ⟨_, _, exec_decbuf_of_decodeRun hs hc1 hrun1, hs, exec_decbuf_of_decodeRun hs hc2 hrun2, hs, rfl, rfl⟩

end Sys2Proof.Machine

/-! The statement of 42_status.md: which packets are STAT, and what STAT answers. -/

namespace Sys2Proof.Machine

/-- STAT does not ask whether the CFD is ready: on every state it answers STATUS and keeps the rest
(42_status.md R120). -/
theorem exec_stat (s : State) :
    exec .stat s = .next { s with responses := s.responses ++ [[s.err.setWidth 32]] } := by
  rw [exec, execStat, answer, respond, statusWord]

/-- Settles O21: the header of the STAT row is the word 3, and `exec_stat` holds of ready and halted states alike. -/
theorem statRequest : Obligations.StatRequest :=
  ⟨fun _ => decode_eq_stat, exec_stat⟩

end Sys2Proof.Machine

/-! The statements of 60_exceptions.md: what a packet that is no request raises, what taking an exception changes, the
halt, the priority of the checks, the model faults, and the wait with no move pending. -/

namespace Sys2Proof.Machine

/-! ### Taking an exception -/

theorem decode_illegal_of_not_wellFormed {p : Packet} (h : Packet.wellFormed p = false) :
    ∃ why, decode p = .illegal why := by
  rw [decode_illegal_iff, ← wellFormed_iff_run, h]
  exact Bool.false_ne_true

/-- Settles O23: a packet that is not well-formed decodes to no request. -/
theorem illegalPacketRaises : Obligations.IllegalPacketRaises := fun _ _ hs hp =>
  serve_of_illegal hs (decode_illegal_of_not_wellFormed hp)

/-- A packet sent to a ready CFD raises an exception, or leaves it ready. -/
theorem serve_next_cases {s t : State} {p : Packet} (hs : s.err = 0#4) (he : serve p s = .next t) :
    (∃ e, t = raise e s) ∨ t.err = 0#4 := by
  rcases serve_cases (p := p) hs with ⟨i, -, hserve⟩ | ⟨why, -, hserve⟩
  · exact exec_next_cases hs (hserve ▸ he)
  · rw [hserve] at he
    cases he
    exact .inl ⟨_, rfl⟩

/-- Settles O24: a ready CFD is halted by `raise` alone, which is the state of the statement. -/
theorem exceptionEntry : Obligations.ExceptionEntry := fun _ _ _ hs he ht =>
  (serve_next_cases hs he).resolve_right ht

/-! ### The halt -/

/-- A move made on a halted CFD leaves ERR as it is, unless it is a RESET, alone or abandoning a request
(60_exceptions.md R133, 70_reset_and_hazards.md R150). -/
theorem hostMove_err_of_halted {s t : State} {m : HostMove} (hs : s.err ≠ 0#4) (he : hostMove m s = .next t) :
    t.err = s.err ∨ (t.err = 0#4 ∧ (m = .reset ∨ ∃ p, m = .abandon p)) := by
  cases m with
  | request p =>
    rw [hostMove, serve_of_halted hs] at he
    cases he
    exact .inl rfl
  | writeIbuf a v =>
    obtain ⟨-, rfl⟩ := hostWriteIbuf_eq_next.1 he
    exact .inl rfl
  | readObuf j =>
    obtain ⟨-, v, -, rfl⟩ := hostReadObuf_eq_next.1 he
    exact .inl rfl
  | reset => cases he; exact .inr ⟨rfl, .inl rfl⟩
  | abandon p => cases he; exact .inr ⟨rfl, .inr ⟨p, rfl⟩⟩

/-- Settles O25: every packet gets the answer of `serve_of_halted`, and of the host's moves only RESET clears ERR. -/
theorem haltedUntilReset : Obligations.HaltedUntilReset := by
  refine ⟨fun s p hs => serve_of_halted hs p, fun s t hs he => ?_⟩
  rcases step_cases s with ⟨-, hstep⟩ | ⟨m, rest, hp, hstep⟩
  · rw [hstep] at he
    cases he
    exact .inl rfl
  · rcases hostMove_err_of_halted (s := { s with pending := rest }) hs (hstep ▸ he) with
      hkept | ⟨ht, rfl | ⟨p, rfl⟩⟩
    · exact .inl hkept
    · exact .inr ⟨ht, rest, .inl hp⟩
    · exact .inr ⟨ht, rest, .inr ⟨p, hp⟩⟩

/-! ### The priority of the checks -/

/-- A request with this outcome leaves `code` in ERR; the model fault comes after every check, so it stands for 0, no
exception (60_exceptions.md R135). -/
def LeavesErr (r : Result) (code : BitVec 4) : Prop :=
  (∀ t, r = .next t → t.err = code) ∧ (∀ f, r = .fault f → code = 0#4)

theorem leavesErr_next {t : State} {code : BitVec 4} (h : t.err = code) : LeavesErr (.next t) code :=
  ⟨fun _ heq => by cases heq; exact h, nofun⟩

theorem leavesErr_fault (f : Fault) : LeavesErr (.fault f) 0#4 := ⟨nofun, fun _ _ => rfl⟩

section Priority
variable {s : State}

theorem exec_decrec_leavesErr (hs : s.err = 0#4) (rlen : BitVec 3) (record : Word) :
    LeavesErr (exec (.decrec rlen record) s) (if rlen ≠ 4#3 then 1#4 else 0#4) := by
  rw [exec, execDecrec_of_ready hs]
  by_cases h : rlen = 4#3
  · rw [if_pos h, if_neg (not_not.2 h)]
    exact leavesErr_next hs
  · rw [if_neg h, if_pos h]
    exact leavesErr_next rfl

theorem exec_decbuf_leavesErr (hs : s.err = 0#4) (src len dst : Word) :
    LeavesErr (exec (.decbuf src len dst) s)
      (if len.toNat % 4 ≠ 0 then 2#4
        else if src.toNat + len.toNat > s.ibufBytes.val then 4#4
        else if dst.toNat + len.toNat / 4 > s.obufEntries.val then 4#4
        else 0#4) := by
  rcases execDecbuf_cases src len dst s with
    ⟨h, _⟩ | ⟨_, hlen, he⟩ | ⟨_, hlen, hrange, he⟩ | ⟨_, ⟨hlen, hsrc, hdst⟩, _, he⟩ |
      ⟨_, ⟨hlen, hsrc, hdst⟩, _, _, he⟩
  · exact absurd hs h
  all_goals rw [exec, he]
  · rw [if_pos hlen]
    exact leavesErr_next rfl
  · rw [if_neg (not_not.2 hlen)]
    rcases hrange with hsrc | hdst
    · rw [if_pos hsrc]
      exact leavesErr_next rfl
    · rw [if_pos hdst, ite_self]
      exact leavesErr_next rfl
  · rw [if_neg (not_not.2 hlen), if_neg (Nat.not_lt.2 hsrc), if_neg (Nat.not_lt.2 hdst)]
    exact leavesErr_fault _
  · rw [if_neg (not_not.2 hlen), if_neg (Nat.not_lt.2 hsrc), if_neg (Nat.not_lt.2 hdst)]
    exact leavesErr_next hs

theorem exec_stat_leavesErr (hs : s.err = 0#4) : LeavesErr (exec .stat s) 0#4 := leavesErr_next hs

end Priority

/-- Settles O26: one rank of the rule after the other, down to the request's own checks. -/
theorem priorityOfChecks : Obligations.PriorityOfChecks := by
  rintro s p code rfl
  change LeavesErr (serve p s) _
  by_cases hs : s.err = 0#4
  · rw [if_neg (not_not.2 hs)]
    by_cases hwf : Packet.wellFormed p = false
    · rw [if_pos hwf, illegalPacketRaises s p hs hwf]
      exact leavesErr_next rfl
    · obtain ⟨i, hd⟩ := wellFormed_iff_run.1 (Bool.eq_true_of_not_eq_false hwf)
      rw [if_neg hwf, serve, hd]
      cases i with
      | decrec rlen record => exact exec_decrec_leavesErr hs rlen record
      | decbuf src len dst => exact exec_decbuf_leavesErr hs src len dst
      | stat => exact exec_stat_leavesErr hs
  · rw [if_pos hs, serve_of_halted hs]
    exact leavesErr_next rfl

/-! ### The model faults -/

section Faults
variable {s : State} {f : Fault}

/-- The one request that can be a model fault is a DECBUF over an unwritten byte (41_buffer_decode.md R102). -/
theorem exec_eq_fault {i : Instr} (he : exec i s = .fault f) :
    f = .unwrittenInput ∧ s.err = 0#4 ∧ ∃ src len dst, i = .decbuf src len dst ∧
      ∃ k, k < len.toNat ∧ Memory.read s.ibuf (src.toNat + k) = none := by
  cases i with
  | decrec rlen record =>
    by_cases hs : s.err = 0#4
    · rw [exec, execDecrec_of_ready hs] at he
      cases he
    · rw [exec_of_halted hs] at he
      cases he
  | decbuf src len dst =>
    obtain ⟨hf, hs, ⟨hlen, -, -⟩, hrun⟩ := exec_decbuf_eq_fault.1 he
    exact ⟨hf, hs, src, len, dst, rfl, (decodeRun_none_iff_unwritten hlen).1 hrun⟩
  | stat => cases he

theorem serve_eq_fault {p : Packet} (he : serve p s = .fault f) :
    f = .unwrittenInput ∧ s.err = 0#4 ∧ ∃ src len dst, decode p = .run (.decbuf src len dst) ∧
      ∃ k, k < len.toNat ∧ Memory.read s.ibuf (src.toNat + k) = none := by
  by_cases hs : s.err = 0#4
  · rcases serve_cases (p := p) hs with ⟨i, hd, hserve⟩ | ⟨why, -, hserve⟩
    · obtain ⟨hf, -, src, len, dst, rfl, hunwritten⟩ := exec_eq_fault (hserve ▸ he)
      exact ⟨hf, hs, src, len, dst, hd, hunwritten⟩
    · rw [hserve] at he
      cases he
  · rw [serve_of_halted hs] at he
    cases he

theorem hostWriteIbuf_ne_fault (a : Nat) (v : Byte) : hostWriteIbuf a v s ≠ .fault f := by
  unfold hostWriteIbuf
  split <;> exact nofun

theorem hostReadObuf_eq_fault {j : Nat} : hostReadObuf j s = .fault f ↔
    f = .unwrittenOutput ∧ j < s.obufEntries.val ∧ Memory.read s.obuf j = none := by
  by_cases hj : j < s.obufEntries.val
  · cases hr : Memory.read s.obuf j <;> simp [hostReadObuf, hj, hr, eq_comm]
  · simp [hostReadObuf, hj]

end Faults

/-- Settles O42: of the host's moves only a request and a read of OBUF can be a fault. -/
theorem faultsOnlyFromUnwritten : Obligations.FaultsOnlyFromUnwritten := by
  intro s f he
  rcases step_cases s with ⟨-, hstep⟩ | ⟨m, rest, hp, hstep⟩
  · rw [hstep] at he
    cases he
  · rw [hstep] at he
    cases m with
    | request p =>
      obtain ⟨hf, hs, src, len, dst, hd, k, hk, hunwritten⟩ := serve_eq_fault he
      exact .inl ⟨hf, p, src, len, dst, rest, k, hp, hd, hs, hk, hunwritten⟩
    | writeIbuf a v => exact absurd he (hostWriteIbuf_ne_fault a v)
    | readObuf j =>
      obtain ⟨hf, -, hunwritten⟩ := hostReadObuf_eq_fault.1 he
      exact .inr ⟨hf, j, rest, hp, hunwritten⟩
    | reset => cases he
    | abandon p => cases he

/-! ### Waiting -/

/-- Settles O40: with an empty queue a step makes no move. -/
theorem waitingKeepsState : Obligations.WaitingKeepsState := by
  intro s hp
  rcases step_cases s with ⟨-, hstep⟩ | ⟨m, rest, hmove, -⟩
  · exact hstep
  · exact absurd (hp.symm.trans hmove) (List.cons_ne_nil m rest).symm

end Sys2Proof.Machine

/-! The statement of 70_reset_and_hazards.md: both moves that assert RESET leave the same state, whose fields are the
`resetCfd` laws. -/

namespace Sys2Proof.Machine

/-- RESET gives the same next state whether asserted alone or to abandon a request; the abandoned packet plays no part
(70_reset_and_hazards.md R150). -/
theorem hostMove_of_reset {m : HostMove} (hm : m = .reset ∨ ∃ p, m = .abandon p) (s : State) :
    hostMove m s = .next (resetCfd s) := by
  rcases hm with rfl | ⟨p, rfl⟩
  · rfl
  · rfl

theorem step_reset {s : State} {m : HostMove} {rest : List HostMove} (hp : s.pending = m :: rest)
    (hm : m = .reset ∨ ∃ p, m = .abandon p) : step s = .next (resetCfd { s with pending := rest }) := by
  rw [step_of_pending hp]
  exact hostMove_of_reset hm _

/-- Settles O32: the next state is `resetCfd` of the state with the move taken off its queue. -/
theorem resetMove : Obligations.ResetMove := by
  intro s m rest hp hm
  refine ⟨resetCfd { s with pending := rest }, step_reset hp hm, resetCfd_err _, fun a => ?_, fun j => ?_,
    resetCfd_responses _, resetCfd_readouts _, resetCfd_ibufBytes _, resetCfd_obufEntries _, resetCfd_pending _⟩
  · rw [resetCfd_ibuf, read_nil]
  · rw [resetCfd_obuf, read_nil]

end Sys2Proof.Machine
